-- ==== Sys2Proof/Word.lean ====
section
/-! DEFINITION. The machine's one data width: every register, memory cell, address and operand is a byte
(00_scope.md R5, R8). -/

namespace Sys2Proof

/-- An unsigned 8-bit value: a register, a memory cell, an opcode, an operand (00_scope.md R8). -/
abbrev Byte := BitVec 8

/-- An 8-bit address: every one of the 256 values names a memory cell (20_memory.md R31). -/
abbrev Addr := BitVec 8

/-- The index of a register, 0..7 (10_state.md R14). -/
abbrev RegIdx := Fin 8

end Sys2Proof
end

