-- ==== Sys2Proof/Config.lean ====
section
/-! DEFINITION. The implementation parameters of 00_scope.md R5. The one parameter the spec leaves OPEN, `EXT_ALU`, is
carried by the state (`Machine.State.extAlu`, log 1); its default stands here. -/

namespace Sys2Proof.Config

/-- `MEM_SIZE`: the number of memory cells (00_scope.md R5). -/
def memSize : Nat := 256

/-- `SP_INDEX`: the register used as stack pointer (00_scope.md R5, 10_state.md R15). -/
def spIndex : RegIdx := 7

/-- `SP_RESET`: the reset value of register 7 (00_scope.md R5, 10_state.md R25). -/
def spReset : Byte := 0xF4

/-- `PC_RESET`: the reset value of `pc` (00_scope.md R5, 70_reset_and_hazards.md R127). -/
def pcReset : Addr := 0x00

/-- `LOAD_BASE`: the address of the first program byte (00_scope.md R5, 30_encoding.md R56). -/
def loadBase : Nat := 0

/-- What a memory cell holds after reset, so what an address that memory does not list reads as (10_state.md R22). -/
def memReset : Byte := 0x00

/-- The default of the open parameter `EXT_ALU` (00_scope.md R5, D1). -/
def extAluDefault : Bool := false

end Sys2Proof.Config
end

