-- ==== Sys2Proof/Machine/Memory.lean ====
section
/-! DEFINITION. Memory: the 256 byte cells of 20_memory.md R31, held as the list of the cells that differ from the reset
content, addresses strictly rising. The two primitives are those of R32; an address is 8 bits wide, so no access can be
outside 0..255 and none can wrap. -/

namespace Sys2Proof.Machine

/-- The cells that do not hold their reset content (20_memory.md R31), in canonical form: see `Memory.wf`. -/
abbrev Memory := List Host.Cell

/-- The content of the cell with key `k`; a cell that is not listed holds its reset content (10_state.md R22). -/
def Memory.readCell (m : Memory) (k : Nat) : Byte :=
  match m with
  | [] => Config.memReset
  | (j, v) :: rest => if j = k then v else Memory.readCell rest k

/-- Put a cell in front of a list, unless it holds the reset content. -/
def Memory.cons (k : Nat) (v : Byte) (m : Memory) : Memory :=
  if v = Config.memReset then m else (k, v) :: m

/-- The memory in which the cell with key `k` holds `v`, in canonical form if `m` is. -/
def Memory.writeCell (m : Memory) (k : Nat) (v : Byte) : Memory :=
  match m with
  | [] => Memory.cons k v []
  | (j, w) :: rest =>
    if k < j then Memory.cons k v ((j, w) :: rest)
    else if k = j then Memory.cons k v rest
    else (j, w) :: Memory.writeCell rest k v

/-- `MemRead(addr, 1)` (20_memory.md R32). -/
def Memory.read (m : Memory) (a : Addr) : Byte := Memory.readCell m a.toNat

/-- `MemWrite(addr, 1, v)` (20_memory.md R32). -/
def Memory.write (m : Memory) (a : Addr) (v : Byte) : Memory := Memory.writeCell m a.toNat v

/-- The canonical form of a list whose keys are all at least `low`: keys strictly rising, inside the 256 cells, and no cell
listed that holds its reset content. -/
def Memory.wfFrom (low : Nat) (m : Memory) : Bool :=
  match m with
  | [] => true
  | (j, v) :: rest => decide (low ≤ j) && decide (j < Config.memSize) && decide (v ≠ Config.memReset) && Memory.wfFrom (j + 1) rest

/-- The canonical form of memory. -/
def Memory.wf (m : Memory) : Bool := Memory.wfFrom 0 m

end Sys2Proof.Machine
end

