-- ==== Sys2Proof/Syntax.lean ====
section
/-! DEFINITION. The instructions: one constructor per row of spec/opcode_table.json, in the order of 30_encoding.md R49 and
then R55. Operands are the operand bytes as fetched (40_dispatcher.md R63): a register operand above 7 is a term of the
syntax that `WellFormed.lean` refuses and that takes RegIndexFault when executed (30_encoding.md R52). -/

namespace Sys2Proof

/-- An instruction with its operand bytes, `a` the byte at `pc+1` and `b` the byte at `pc+2` (30_encoding.md R46, R47). -/
inductive Instr
  /-- HLT (44_data_movement.md R93). -/
  | hlt
  /-- LDI reg, value (44_data_movement.md R91): `a` a register index, `b` a literal. -/
  | ldi (a b : Byte)
  /-- PRN reg (44_data_movement.md R92). -/
  | prn (a : Byte)
  /-- MUL regA, regB (41_alu.md R73). -/
  | mul (a b : Byte)
  /-- PUSH reg (42_stack.md R79). -/
  | push (a : Byte)
  /-- POP reg (42_stack.md R80). -/
  | pop (a : Byte)
  /-- CALL reg (42_stack.md R81). -/
  | call (a : Byte)
  /-- RET (42_stack.md R82). -/
  | ret
  /-- ADD regA, regB (41_alu.md R72). -/
  | add (a b : Byte)
  /-- CMP regA, regB (41_alu.md R74). -/
  | cmp (a b : Byte)
  /-- JEQ reg (43_branch.md R87). -/
  | jeq (a : Byte)
  /-- JMP reg (43_branch.md R86). -/
  | jmp (a : Byte)
  /-- JNE reg (43_branch.md R88). -/
  | jne (a : Byte)
  /-- SUB regA, regB (45_alu_extension.md R97), only with `EXT_ALU`. -/
  | sub (a b : Byte)
  /-- AND regA, regB (45_alu_extension.md R98), only with `EXT_ALU`. -/
  | and (a b : Byte)
  /-- OR regA, regB (45_alu_extension.md R99), only with `EXT_ALU`. -/
  | or (a b : Byte)
  /-- XOR regA, regB (45_alu_extension.md R100), only with `EXT_ALU`. -/
  | xor (a b : Byte)
  /-- SHL regA, regB (45_alu_extension.md R101), only with `EXT_ALU`. -/
  | shl (a b : Byte)
  /-- SHR regA, regB (45_alu_extension.md R102), only with `EXT_ALU`. -/
  | shr (a b : Byte)
  deriving DecidableEq, Repr

/-- Whether the instruction is one of the six that only `EXT_ALU` registers (30_encoding.md R55). -/
def Instr.isExtension : Instr → Bool
  | .hlt | .ldi _ _ | .prn _ | .mul _ _ | .push _ | .pop _ | .call _ | .ret | .add _ _ | .cmp _ _
  | .jeq _ | .jmp _ | .jne _ => false
  | .sub _ _ | .and _ _ | .or _ _ | .xor _ _ | .shl _ _ | .shr _ _ => true

/-- The number of operand bytes (30_encoding.md R46): 0 in format F0, 1 in F1, 2 in F2. -/
def Instr.operandCount : Instr → Nat
  | .hlt | .ret => 0
  | .prn _ | .push _ | .pop _ | .call _ | .jeq _ | .jmp _ | .jne _ => 1
  | .ldi _ _ | .mul _ _ | .add _ _ | .cmp _ _ | .sub _ _ | .and _ _ | .or _ _ | .xor _ _ | .shl _ _ | .shr _ _ => 2

/-- The operand bytes that the instruction uses as register indices (30_encoding.md R47): LDI's second operand is a literal. -/
def Instr.regOperands : Instr → List Byte
  | .hlt | .ret => []
  | .ldi a _ => [a]
  | .prn a | .push a | .pop a | .call a | .jeq a | .jmp a | .jne a => [a]
  | .mul a b | .add a b | .cmp a b | .sub a b | .and a b | .or a b | .xor a b | .shl a b | .shr a b => [a, b]

end Sys2Proof
end

