-- ==== Sys2Proof/Machine/State.lean ====
section
/-! DEFINITION. The machine's state, exactly the components of 10_state.md R13 and the open parameter `EXT_ALU`; the state
after reset (R25); and the reasons a step can stop, which are the model's own: a run-time error of the spec is a next
state (60_exceptions.md R110), not a stop. -/

namespace Sys2Proof.Machine

/-- The Dispatcher's state machine (10_state.md R18). -/
inductive Engine
  | idle
  | running
  | halted
  deriving DecidableEq, Repr

/-- The cause of a run-time fault (10_state.md R19, 60_exceptions.md R104). -/
inductive Cause
  /-- Code 1: the byte at `pc` is not a registered opcode (60_exceptions.md R105). -/
  | dispatchError
  /-- Code 2: the ALU is asked for an operation outside its set; no step raises it (60_exceptions.md R106). -/
  | aluError
  /-- Code 3: the stack pointer would leave 0..255 (60_exceptions.md R107). -/
  | stackFault
  /-- Code 4: an operand byte, the successor or the return address lies beyond 255 (60_exceptions.md R108). -/
  | pcRangeFault
  /-- Code 5: a register-index operand is greater than 7 (60_exceptions.md R109). -/
  | regIndexFault
  deriving DecidableEq, Repr

/-- The record of the first fault of a run (10_state.md R19). -/
structure FaultRecord where
  /-- Which fault. -/
  cause : Cause
  /-- `pc` at the start of the faulting step. -/
  fpc : Addr
  /-- The opcode byte fetched in the faulting step. -/
  fop : Byte
  deriving DecidableEq, Repr

/-- The three independent one-bit flags (10_state.md R17). -/
structure Flags where
  /-- `E`, Equal. -/
  e : Bool
  /-- `L`, Less-than: read by no instruction. -/
  l : Bool
  /-- `G`, Greater-than: read by no instruction. -/
  g : Bool
  deriving DecidableEq, Repr

/-- The whole state of the machine (10_state.md R13), and the value of the parameter `EXT_ALU` (log 1). -/
structure State where
  /-- `mem`, the 256 cells (10_state.md R22). -/
  mem : Memory
  /-- `x[0]` to `x[7]` (10_state.md R14). -/
  regs : Vector Byte 8
  /-- `pc` (10_state.md R16). -/
  pc : Addr
  /-- `E`, `L`, `G` (10_state.md R17). -/
  flags : Flags
  /-- `engine` (10_state.md R18). -/
  engine : Engine
  /-- `fault`: `none` until the first fault (10_state.md R19). -/
  fault : Option FaultRecord
  /-- `out`, the values PRN has emitted, oldest first (10_state.md R21). -/
  out : List Byte
  /-- The value of the parameter `EXT_ALU`: written by no step and no port (00_scope.md R5, log 1). -/
  extAlu : Bool
  deriving DecidableEq, Repr

/-- Why `step` stops: only where no step exists. Run-time errors are next states (60_exceptions.md R110). -/
inductive Fault
  /-- `step` was asked for while the engine is Idle: no step exists before `run` (10_state.md R27). Raised by `step` alone.
  SAFE: the machine does nothing there, and the model claims nothing. -/
  | engineIdle
  /-- `step` was asked for while the engine is Halted: Halted is terminal and no further step exists (40_dispatcher.md R59).
  Raised by `step` alone. SAFE: the machine does nothing there, and the model claims nothing. -/
  | engineHalted
  deriving DecidableEq, Repr

/-- Why the model gives an instruction no meaning. -/
inductive Refusal
  /-- An instruction without a meaning yet. Raised only by an arm of `exec`; no arm raises it now. SAFE. -/
  | notModelled (mnemonic : String)
  deriving DecidableEq, Repr

/-- The state right after reset (10_state.md R25); `EXT_ALU` has its default (00_scope.md R5). -/
def State.reset : State where
  mem := []
  regs := #v[0x00, 0x00, 0x00, 0x00, 0x00, 0x00, 0x00, Config.spReset]
  pc := Config.pcReset
  flags := ⟨false, false, false⟩
  engine := .idle
  fault := none
  out := []
  extAlu := Config.extAluDefault

end Sys2Proof.Machine
end

