-- ==== Sys2Proof/Machine/Flags.lean ====
section
/-! DEFINITION. The one flag computation of the machine: CMP's. No other instruction writes a flag (10_state.md R17). -/

namespace Sys2Proof.Machine

/-- CMP writes 1 to exactly one flag and nothing to the others: `E` if equal, else `G` if greater, else `L`; unsigned
(41_alu.md R74, R75; the polarity is conflict C1's and D2's). -/
def compareFlags (x y : Byte) (f : Flags) : Flags :=
  if x = y then { f with e := true }
  else if x.toNat > y.toNat then { f with g := true }
  else { f with l := true }

end Sys2Proof.Machine
end

