-- ==== Sys2Proof/Machine/Ops.lean ====
section
/-! DEFINITION. The named operations on the state: registers, memory, `pc`, output, the stack's push, taking a fault, and
the halt. There is no return from a fault (60_exceptions.md R113): the only way out of Halted is `rst`, which is
`State.onReset` in Ports.lean. -/

namespace Sys2Proof.Machine

/-- What an instruction or a step answers. -/
abbrev Answer := Host.Outcome State Fault Refusal

/-- `x[i]`: no register is hard-wired, banked or aliased but `SP` (10_state.md R14). -/
def State.reg (s : State) (i : RegIdx) : Byte := s.regs[i.val]

/-- `x[i] <- v` (00_scope.md R9). -/
def State.setReg (s : State) (i : RegIdx) (v : Byte) : State := { s with regs := s.regs.set i.val v }

/-- `SP`, the alias of `x[7]` (10_state.md R15). -/
def State.sp (s : State) : Byte := s.reg Config.spIndex

/-- `SP <- v`. -/
def State.setSp (s : State) (v : Byte) : State := s.setReg Config.spIndex v

/-- `pc <- t` (10_state.md R16). -/
def State.setPc (s : State) (t : Addr) : State := { s with pc := t }

/-- `MemRead(addr, 1)` (20_memory.md R32). -/
def State.readMem (s : State) (a : Addr) : Byte := s.mem.read a

/-- `MemWrite(addr, 1, v)` (20_memory.md R32). -/
def State.writeMem (s : State) (a : Addr) (v : Byte) : State := { s with mem := s.mem.write a v }

/-- The flags replaced. -/
def State.setFlags (s : State) (f : Flags) : State := { s with flags := f }

/-- `Emit(v)`: append to `out` (10_state.md R21). -/
def State.emit (s : State) (v : Byte) : State := { s with out := s.out ++ [v] }

/-- `engine <- Halted` with no fault: what HLT does (44_data_movement.md R93). -/
def State.halt (s : State) : State := { s with engine := .halted }

/-- Taking a fault (60_exceptions.md R110): the engine halts, the record gets the cause, the `pc` of the faulting
instruction and its opcode byte `MemRead(fpc, 1)` (10_state.md R19), and nothing else changes. -/
def State.enterFault (c : Cause) (s : State) : State :=
  { s with engine := .halted, fault := some ⟨c, s.pc, s.readMem s.pc⟩ }

/-- `raise c`: the step ends in the fault entry, before any write (00_scope.md R9). -/
def raise (c : Cause) (s : State) : Answer := .next (s.enterFault c)

/-- The address a push stores to: `SP - 1` (20_memory.md R33). -/
def State.pushAddr (s : State) : Addr := s.sp - 1

/-- `x[7] <- x[7] - 1; MemWrite(x[7], 1, value)`, the value computed after the decrement (42_stack.md R79, R81). -/
def State.pushByte (value : State → Byte) (s : State) : State :=
  let s' := s.setSp (s.sp - 1)
  s'.writeMem s'.sp (value s')

end Sys2Proof.Machine
end

