-- ==== Sys2Proof/Machine/Operands.lean ====
section
/-! DEFINITION. The operand forms and the checks every instruction makes before its own pseudocode: phase 3 and phase 4 of
40_dispatcher.md R60, and the fall-through of R65. -/

namespace Sys2Proof.Machine

/-- The register a register-index operand names, if the byte is in 0..7 (30_encoding.md R47, R52): the byte is not masked. -/
def regIndex (a : Byte) : Option RegIdx := if h : a.toNat < 8 then some ⟨a.toNat, h⟩ else none

/-- Phase 3: the last of `n` operand bytes must not lie beyond address 255 (40_dispatcher.md R63, 60_exceptions.md R108 (a)). -/
def inRange (n : Nat) (s : State) (k : Answer) : Answer :=
  if s.pc.toNat + n > 255 then raise .pcRangeFault s else k

/-- Phase 4 for one register operand (40_dispatcher.md R64, 60_exceptions.md R109). -/
def regOperand (a : Byte) (s : State) (k : RegIdx → Answer) : Answer :=
  match regIndex a with
  | none => raise .regIndexFault s
  | some r => k r

/-- One register operand, the first of `n` operand bytes: phases 3 and 4. `n` is 1 in format F1 and 2 for LDI, whose second
operand is a literal and is never checked. -/
def withReg (n : Nat) (a : Byte) (s : State) (k : RegIdx → Answer) : Answer :=
  inRange n s (regOperand a s k)

/-- Format F2 with two register operands: phases 3 and 4. -/
def withRegs (a b : Byte) (s : State) (k : RegIdx → RegIdx → Answer) : Answer :=
  inRange 2 s (regOperand a s fun ra => regOperand b s fun rb => k ra rb)

/-- The address `n` bytes after the instruction's opcode; only used where it is at most 255. -/
def State.pcPlus (s : State) (n : Nat) : Addr := BitVec.ofNat 8 (s.pc.toNat + n)

/-- The guard on the successor or return address `p + n` (60_exceptions.md R108 (b), (c)), made before any write. -/
def guardNext (n : Nat) (s : State) (k : Answer) : Answer :=
  if s.pc.toNat + n > 255 then raise .pcRangeFault s else k

/-- Fall through: the effect, then `pc <- p + n`, `n` the instruction's length; PcRangeFault instead, before any write, if
that is 256 (40_dispatcher.md R65). -/
def fallThrough (n : Nat) (s : State) (effect : State → State) : Answer :=
  guardNext n s (.next ((effect s).setPc (s.pcPlus n)))

end Sys2Proof.Machine
end

