-- ==== Sys2Proof/Machine/Alu.lean ====
section
/-! DEFINITION. The ALU behind its contract `apply(op, regA, regB)` (41_alu.md R71, 40_dispatcher.md R67) and the meanings of
ADD, MUL and CMP. -/

namespace Sys2Proof.Machine

/-- What the Dispatcher can ask the ALU for (40_dispatcher.md R67). -/
inductive AluOp
  | add | mul | cmp
  | sub | and | or | xor | shl | shr
  deriving DecidableEq, Repr

/-- The operations the ALU implements: three, and six more with `EXT_ALU` (40_dispatcher.md R67, 45_alu_extension.md R95). -/
def aluSupports (ext : Bool) : AluOp → Bool
  | .add | .mul | .cmp => true
  | .sub | .and | .or | .xor | .shl | .shr => ext

/-- The 8-bit result of an operation that writes `x[regA]`, reduced modulo 256 (41_alu.md R72, R73, R76; 45_alu_extension.md
R97 to R102: the whole 8-bit count is used, and a count of 8 or more gives 0). CMP has no result: `x[regA]` is kept. -/
def aluResult (op : AluOp) (x y : Byte) : Byte :=
  match op with
  | .add => x + y
  | .mul => x * y
  | .cmp => x
  | .sub => x - y
  | .and => x &&& y
  | .or => x ||| y
  | .xor => x ^^^ y
  | .shl => x <<< y.toNat
  | .shr => x >>> y.toNat

/-- `apply(op, regA, regB)`: writes `x[regA]`, or one flag for CMP; an operation outside the ALU's set is AluError
(60_exceptions.md R106), which no step can reach. It does not touch `pc` (41_alu.md R71). -/
def aluApply (op : AluOp) (ra rb : RegIdx) (s : State) : Except Cause State :=
  if aluSupports s.extAlu op then
    match op with
    | .cmp => .ok (s.setFlags (compareFlags (s.reg ra) (s.reg rb) s.flags))
    | op => .ok (s.setReg ra (aluResult op (s.reg ra) (s.reg rb)))
  else .error .aluError

/-- An ALU instruction: format F2 with two register operands; the guard on the successor, the ALU, then `pc <- p + 3`
(41_alu.md R71, 45_alu_extension.md R96). -/
def aluInstr (op : AluOp) (a b : Byte) (s : State) : Answer :=
  withRegs a b s fun ra rb =>
    guardNext 3 s
      (match aluApply op ra rb s with
       | .ok s' => .next (s'.setPc (s.pcPlus 3))
       | .error c => raise c s)

/-- ADD regA, regB (41_alu.md R72). -/
def execAdd (a b : Byte) (s : State) : Answer := aluInstr .add a b s

/-- MUL regA, regB (41_alu.md R73). -/
def execMul (a b : Byte) (s : State) : Answer := aluInstr .mul a b s

/-- CMP regA, regB (41_alu.md R74). -/
def execCmp (a b : Byte) (s : State) : Answer := aluInstr .cmp a b s

end Sys2Proof.Machine
end

