-- ==== Sys2Proof/Machine/AluExtension.lean ====
section
/-! DEFINITION. The meanings of the six instructions that only `EXT_ALU` registers (45_alu_extension.md R95 to R102). With
`EXT_ALU` false the decoder rejects their bytes, so a step never comes here; asked for anyway, the ALU answers AluError
(log 2). -/

namespace Sys2Proof.Machine

/-- SUB regA, regB (45_alu_extension.md R97). -/
def execSub (a b : Byte) (s : State) : Answer := aluInstr .sub a b s

/-- AND regA, regB (45_alu_extension.md R98). -/
def execAnd (a b : Byte) (s : State) : Answer := aluInstr .and a b s

/-- OR regA, regB (45_alu_extension.md R99). -/
def execOr (a b : Byte) (s : State) : Answer := aluInstr .or a b s

/-- XOR regA, regB (45_alu_extension.md R100). -/
def execXor (a b : Byte) (s : State) : Answer := aluInstr .xor a b s

/-- SHL regA, regB (45_alu_extension.md R101). -/
def execShl (a b : Byte) (s : State) : Answer := aluInstr .shl a b s

/-- SHR regA, regB (45_alu_extension.md R102). -/
def execShr (a b : Byte) (s : State) : Answer := aluInstr .shr a b s

end Sys2Proof.Machine
end

