-- ==== Sys2Proof/Machine/Branch.lean ====
section
/-! DEFINITION. The branch unit: JMP, JEQ, JNE (43_branch.md R85 to R89). The target is the content of a register, any byte;
only `E` is read. -/

namespace Sys2Proof.Machine

/-- `pc <- x[r]` when the condition holds, else fall through to `p + 2` (43_branch.md R85). -/
def branchIf (c : Bool) (r : RegIdx) (s : State) : Answer :=
  if c then .next (s.setPc (s.reg r)) else fallThrough 2 s id

/-- JMP reg (43_branch.md R86). -/
def execJmp (a : Byte) (s : State) : Answer := withReg 1 a s fun r => branchIf true r s

/-- JEQ reg (43_branch.md R87). -/
def execJeq (a : Byte) (s : State) : Answer := withReg 1 a s fun r => branchIf s.flags.e r s

/-- JNE reg (43_branch.md R88). -/
def execJne (a : Byte) (s : State) : Answer := withReg 1 a s fun r => branchIf (!s.flags.e) r s

end Sys2Proof.Machine
end

