-- ==== Sys2Proof/Machine/DataMovement.lean ====
section
/-! DEFINITION. Immediate, output and halt: LDI, PRN, HLT (44_data_movement.md R90 to R94). -/

namespace Sys2Proof.Machine

/-- LDI reg, value (44_data_movement.md R91): the literal is used as it stands. -/
def execLdi (a b : Byte) (s : State) : Answer :=
  withReg 2 a s fun r => fallThrough 3 s fun s => s.setReg r b

/-- PRN reg (44_data_movement.md R92). -/
def execPrn (a : Byte) (s : State) : Answer :=
  withReg 1 a s fun r => fallThrough 2 s fun s => s.emit (s.reg r)

/-- HLT (44_data_movement.md R93): `pc` is left at the HLT. -/
def execHlt (s : State) : Answer := .next s.halt

end Sys2Proof.Machine
end

