-- ==== Sys2Proof/Machine/Stack.lean ====
section
/-! DEFINITION. The Stack Manager: PUSH, POP, CALL, RET (42_stack.md R77 to R84). The stack guard is the first check of phase
5 and comes before any write (R78); the stack pointer never wraps. -/

namespace Sys2Proof.Machine

/-- The overflow guard of PUSH and CALL: the decrement would pass 0 (42_stack.md R78). -/
def guardPush (s : State) (k : Answer) : Answer := if s.sp = 0 then raise .stackFault s else k

/-- The underflow guard of POP and RET: register 7 would become `v + 1`, which must not be 256 (42_stack.md R78). -/
def guardPop (v : Byte) (s : State) (k : Answer) : Answer := if v.toNat + 1 > 255 then raise .stackFault s else k

/-- PUSH reg (42_stack.md R79): `x[a]` is read after the decrement. -/
def execPush (a : Byte) (s : State) : Answer :=
  withReg 1 a s fun ra => guardPush s (fallThrough 2 s (State.pushByte fun s' => s'.reg ra))

/-- The byte to which POP adds 1 for register 7: the popped byte if register 7 is itself the destination, else `SP`
(42_stack.md R80). -/
def popBase (ra : RegIdx) (s : State) : Byte := if ra = Config.spIndex then s.readMem s.sp else s.sp

/-- POP reg (42_stack.md R80): `x[a] <- MemRead(SP, 1)`, then register 7 gets its value plus 1. -/
def execPop (a : Byte) (s : State) : Answer :=
  withReg 1 a s fun ra =>
    guardPop (popBase ra s) s
      (fallThrough 2 s fun s => (s.setReg ra (s.readMem s.sp)).setSp (popBase ra s + 1))

/-- CALL reg (42_stack.md R81): the return address `p + 2` is pushed, then `pc` gets `x[a]`, read after the push. -/
def execCall (a : Byte) (s : State) : Answer :=
  withReg 1 a s fun ra =>
    guardPush s (guardNext 2 s
      (let s' := s.pushByte fun _ => s.pcPlus 2
       .next (s'.setPc (s'.reg ra))))

/-- RET (42_stack.md R82). -/
def execRet (s : State) : Answer :=
  guardPop s.sp s (.next ((s.setPc (s.readMem s.sp)).setSp (s.sp + 1)))

end Sys2Proof.Machine
end

