-- ==== Sys2Proof/WellFormed.lean ====
section
/-! DEFINITION. The static check of an instruction: every register-index operand is in 0..7 (30_encoding.md R52). Whether
the instruction's opcode is registered is a matter of `EXT_ALU` and is checked by the decoder (`Decode.lean`). -/

namespace Sys2Proof

/-- A register-index operand byte is legal when it is at most 7 (30_encoding.md R47, R52). -/
def regOperandOk (r : Byte) : Bool := r.toNat ≤ 7

/-- Every register-index operand is legal. -/
def Instr.wellFormed (i : Instr) : Bool := i.regOperands.all regOperandOk

/-- The instruction is registered for this value of `EXT_ALU` (30_encoding.md R51, R55). -/
def Instr.registered (ext : Bool) (i : Instr) : Bool := !i.isExtension || ext

end Sys2Proof
end

