-- ==== Sys2Proof/Decode.lean ====
section
/-! DEFINITION. The decoder, total on any list of bytes and rejecting by name, and after it the encoder, both written from
the opcode tables of 30_encoding.md R49 and R55. A decoder matches all eight bits of the first byte and takes the
instruction's length from the table (R46, R50). Decoding depends on `EXT_ALU` and the bytes alone (R54). -/

namespace Sys2Proof

/-- The format of a row: how its instruction is built from the operand bytes (30_encoding.md R46). -/
inductive Form
  | f0 (i : Instr)
  | f1 (mk : Byte → Instr)
  | f2 (mk : Byte → Byte → Instr)

/-- A row of the opcode table: the opcode byte, the format, and whether only `EXT_ALU` registers it. -/
structure Row where
  opcode : Byte
  form : Form
  extension : Bool

/-- The opcode table: the 13 rows of 30_encoding.md R49 in its order, then the six of R55. -/
def opcodeTable : List Row :=
  [ ⟨0b00000001, .f0 .hlt, false⟩,
    ⟨0b10000010, .f2 .ldi, false⟩,
    ⟨0b01000111, .f1 .prn, false⟩,
    ⟨0b10100010, .f2 .mul, false⟩,
    ⟨0b01000101, .f1 .push, false⟩,
    ⟨0b01000110, .f1 .pop, false⟩,
    ⟨0b01010000, .f1 .call, false⟩,
    ⟨0b00010001, .f0 .ret, false⟩,
    ⟨0b10100000, .f2 .add, false⟩,
    ⟨0b10100111, .f2 .cmp, false⟩,
    ⟨0b01010101, .f1 .jeq, false⟩,
    ⟨0b01010100, .f1 .jmp, false⟩,
    ⟨0b01010110, .f1 .jne, false⟩ ] ++
  [ ⟨0b10100001, .f2 .sub, true⟩,
    ⟨0b10101000, .f2 .and, true⟩,
    ⟨0b10101010, .f2 .or, true⟩,
    ⟨0b10101011, .f2 .xor, true⟩,
    ⟨0b10101100, .f2 .shl, true⟩,
    ⟨0b10101101, .f2 .shr, true⟩ ]

/-- The row of a registered opcode: the dispatch table of 40_dispatcher.md R62, with the extension rows only when
`EXT_ALU` is true. -/
def lookupRow (ext : Bool) (op : Byte) : Option Row :=
  opcodeTable.find? fun r => r.opcode == op && (!r.extension || ext)

/-- Why the decoder rejects a list of bytes. -/
inductive Reject
  /-- There is no byte to decode (the step never meets this: the opcode fetch is always in range, 40_dispatcher.md R61). -/
  | noBytes
  /-- The first byte is not a registered opcode (30_encoding.md R51); the step takes DispatchError. -/
  | unknownOpcode (op : Byte)
  /-- The opcode is registered and its operand bytes are not all there; the step takes PcRangeFault (40_dispatcher.md R63). -/
  | missingOperands (op : Byte)
  deriving DecidableEq, Repr

/-- Build the instruction of format `f` from the bytes after the opcode `op`; the bytes after it are handed back. -/
def takeOperands (op : Byte) (f : Form) (rest : List Byte) : Except Reject (Instr × List Byte) :=
  match f, rest with
  | .f0 i, rest => .ok (i, rest)
  | .f1 mk, a :: rest => .ok (mk a, rest)
  | .f2 mk, a :: b :: rest => .ok (mk a b, rest)
  | .f1 _, [] => .error (.missingOperands op)
  | .f2 _, [] => .error (.missingOperands op)
  | .f2 _, [_] => .error (.missingOperands op)

/-- Decode one instruction from a list of bytes, the opcode first; the bytes after it are handed back
(40_dispatcher.md R60, phases 1 to 3). -/
def decode (ext : Bool) (bytes : List Byte) : Except Reject (Instr × List Byte) :=
  match bytes with
  | [] => .error .noBytes
  | op :: rest =>
    match lookupRow ext op with
    | none => .error (.unknownOpcode op)
    | some row => takeOperands op row.form rest

/-- The bytes of an instruction, the opcode at the lowest address (30_encoding.md R46, R49, R55). -/
def encode : Instr → List Byte
  | .hlt => [0x01]
  | .ldi a b => [0x82, a, b]
  | .prn a => [0x47, a]
  | .mul a b => [0xA2, a, b]
  | .push a => [0x45, a]
  | .pop a => [0x46, a]
  | .call a => [0x50, a]
  | .ret => [0x11]
  | .add a b => [0xA0, a, b]
  | .cmp a b => [0xA7, a, b]
  | .jeq a => [0x55, a]
  | .jmp a => [0x54, a]
  | .jne a => [0x56, a]
  | .sub a b => [0xA1, a, b]
  | .and a b => [0xA8, a, b]
  | .or a b => [0xAA, a, b]
  | .xor a b => [0xAB, a, b]
  | .shl a b => [0xAC, a, b]
  | .shr a b => [0xAD, a, b]

/-- The bytes an instruction word of spec/opcode_table.json stands for: byte k is bits 8k+7..8k, the bits above `nbits`
are zero, and the longest instruction has three bytes (30_encoding.md R46). -/
def tableBytes (nbits w : Nat) : List Byte :=
  let v := w % 2 ^ nbits
  [BitVec.ofNat 8 v, BitVec.ofNat 8 (v / 2 ^ 8), BitVec.ofNat 8 (v / 2 ^ 16)]

/-- The instruction the decoder reads from a word numbered as spec/opcode_table.json numbers it. All 19 rows are asked
about, so the extension rows are registered here (30_encoding.md R55). -/
def decodeTableWord (nbits w : Nat) : Option Instr :=
  match decode true (tableBytes nbits w) with
  | .ok (i, _) => some i
  | .error _ => none

end Sys2Proof
end

