-- ==== Sys2Proof/Machine/Fetch.lean ====
section
/-! DEFINITION. Fetching an instruction's bytes and decoding them: phases 1 to 3 of 40_dispatcher.md R60; the fault each
rejection of the decoder takes; and storing an instruction word where the next step fetches it. -/

namespace Sys2Proof.Machine

/-- The bytes at `pc`, `pc+1` and `pc+2`, as far as they do not lie beyond address 255: operand addresses never wrap
(40_dispatcher.md R61, R63). -/
def fetchBytes (s : State) : List Byte :=
  ([0, 1, 2].filter fun k => s.pc.toNat + k ≤ 255).map fun k => s.readMem (s.pcPlus k)

/-- The instruction the Dispatcher decodes at `pc` (40_dispatcher.md R62), or why there is none. -/
def fetchDecode (s : State) : Except Reject Instr := (decode s.extAlu (fetchBytes s)).map Prod.fst

/-- The fault a rejected fetch takes: DispatchError for an unregistered byte (40_dispatcher.md R62), PcRangeFault when an
operand byte would lie beyond address 255 (R63). An empty fetch does not occur (R61). -/
def rejectCause : Reject → Cause
  | .noBytes => .pcRangeFault
  | .unknownOpcode _ => .dispatchError
  | .missingOperands _ => .pcRangeFault

/-- Store bytes from key `k` upward, as far as they do not lie beyond address 255. -/
def storeBytes (k : Nat) (bytes : List Byte) (s : State) : State :=
  match bytes with
  | [] => s
  | v :: rest => storeBytes (k + 1) rest (if k ≤ 255 then s.writeMem (BitVec.ofNat 8 k) v else s)

/-- Whether the word is an instruction that only `EXT_ALU` registers (30_encoding.md R55). -/
def wordNeedsExt (nbits w : Nat) : Bool :=
  match decodeTableWord nbits w with
  | some i => i.isExtension
  | none => false

/-- The word's bytes stored at `pc`, the engine Running, and `EXT_ALU` true if the word needs it: what a load, a `run` and
the choice of the parameter do from outside the machine (70_reset_and_hazards.md R128, log 4). -/
def placeWord (s : State) (nbits w : Nat) : State :=
  { storeBytes s.pc.toNat (tableBytes nbits w) s with
    engine := .running, extAlu := s.extAlu || wordNeedsExt nbits w }

end Sys2Proof.Machine
end

