-- ==== Sys2Proof/Machine/Step.lean ====
section
/-! DEFINITION. One step (40_dispatcher.md R60), which exists exactly when the engine is Running. -/

namespace Sys2Proof.Machine

/-- Fetch, decode and execute one instruction (40_dispatcher.md R60); a rejected fetch takes its fault (R62, R63). In Idle
and Halted no step exists (10_state.md R27, 40_dispatcher.md R59), and the answer is a stop of that name (log 3). -/
def step (s : State) : Host.Outcome State Fault Refusal :=
  match s.engine with
  | .idle => .fault .engineIdle
  | .halted => .fault .engineHalted
  | .running =>
    match fetchDecode s with
    | .ok i => exec i s
    | .error r => raise (rejectCause r) s

/-- The state in which the very next step fetches and runs the instruction of the word (log 4). -/
def State.withFetchWord (s : State) (nbits w : Nat) : State := placeWord s nbits w

end Sys2Proof.Machine
end

