-- ==== Sys2Proof/Machine/Ports.lean ====
section
/-! DEFINITION. The machine's ports (10_state.md R26 to R30): what the host can do to the state, and what it can see of it.
`clk` orders events and is not modelled (70_reset_and_hazards.md R144). -/

namespace Sys2Proof.Machine

/-- The input ports, as sampled in one clock period (10_state.md R26). -/
structure Pins where
  rst : Bool
  run : Bool
  ldWe : Bool
  ldAddr : Addr
  ldData : Byte
  deriving DecidableEq, Repr

/-- `rst`: the whole state becomes the reset state, from any state (70_reset_and_hazards.md R126). `EXT_ALU` is a parameter
and not state, so it stays (log 1). -/
def State.onReset (s : State) : State := { State.reset with extAlu := s.extAlu }

/-- `run`: Idle to Running, ignored otherwise (10_state.md R27). -/
def State.onRun (s : State) : State := if s.engine = .idle then { s with engine := .running } else s

/-- The load port: write one cell while Idle, ignored otherwise (10_state.md R28). -/
def State.onLoad (s : State) (a : Addr) (v : Byte) : State := if s.engine = .idle then s.writeMem a v else s

/-- What the input ports do to a state in which no step is taken: `rst` wins (10_state.md R27); a load and a `run` in the
same period both take effect, the load before the run (log 10). -/
def State.onPins (s : State) (p : Pins) : State :=
  if p.rst then s.onReset
  else
    let s' := if p.ldWe then s.onLoad p.ldAddr p.ldData else s
    if p.run then s'.onRun else s'

/-- `st_engine` (10_state.md R26): 3 is never produced. -/
def Engine.code : Engine → BitVec 2
  | .idle => 0
  | .running => 1
  | .halted => 2

/-- The cause codes (10_state.md R19, 60_exceptions.md R104): 0 encodes no fault; 6 and 7 are never produced. -/
def Cause.code : Cause → BitVec 3
  | .dispatchError => 1
  | .aluError => 2
  | .stackFault => 3
  | .pcRangeFault => 4
  | .regIndexFault => 5

/-- The flags as `st_fl` shows them, `L` in bit 2, `G` in bit 1, `E` in bit 0 (10_state.md R26, R30). -/
def Flags.packed (f : Flags) : BitVec 3 := BitVec.ofBool f.l ++ BitVec.ofBool f.g ++ BitVec.ofBool f.e

/-- The status outputs (10_state.md R26). -/
structure StatusPorts where
  stEngine : BitVec 2
  stCause : BitVec 3
  stFpc : BitVec 8
  stFop : BitVec 8
  stFl : BitVec 3
  deriving DecidableEq, Repr

/-- The status outputs are continuous views of `engine`, `fault` and the flags (10_state.md R30); without a fault the three
fault outputs are 0 (R26). -/
def State.statusPorts (s : State) : StatusPorts :=
  match s.fault with
  | none => ⟨s.engine.code, 0, 0, 0, s.flags.packed⟩
  | some r => ⟨s.engine.code, r.cause.code, r.fpc, r.fop, s.flags.packed⟩

/-- The PRN port over one step from `s` to `t`: `some v` is one `prn_valid` pulse with `v` on `prn_data`, `none` is no pulse
(10_state.md R29). -/
def prnPulse (s t : State) : Option Byte := (t.out.drop s.out.length).head?

/-- The characters of the line end the host prints, which the spec does not name (log 12). -/
def lineEnd : String := "\n"

/-- One emitted value as the host prints it: its decimal numeral and a line end (10_state.md R21). -/
def renderByte (v : Byte) : String := toString v.toNat ++ lineEnd

/-- The standard output of a run (10_state.md R21). -/
def State.outputText (s : State) : String := s.out.foldl (fun acc v => acc ++ renderByte v) ""

/-- The engine has halted with no fault: a clean halt (00_scope.md R12). -/
def State.cleanHalt (s : State) : Bool := s.engine == .halted && s.fault == none

/-- Whether the process exit status is zero: zero for a clean halt, non-zero for a halt with a fault, none before the halt
(10_state.md R30). -/
def State.exitZero (s : State) : Option Bool := if s.engine = .halted then some s.cleanHalt else none

end Sys2Proof.Machine
end

