-- ==== Sys2Proof/Machine/Clock.lean ====
section
/-! DEFINITION. The machine with its input ports: what happens at one step boundary (10_state.md R26 to R28). -/

namespace Sys2Proof.Machine

/-- One tick: `rst` has priority over everything, a step in progress too (70_reset_and_hazards.md R126); while Running the
machine steps and ignores `run` and the load port; while Idle or Halted no step exists, and only the ports act
(10_state.md R27, R28). -/
def tick (p : Pins) (s : State) : Answer :=
  if p.rst then .next s.onReset
  else if s.engine = .running then step s
  else .next (s.onPins p)

/-- Ticks with the given inputs in order, stopping at the first answer that is no next state. -/
def ticks (ps : List Pins) (s : State) : Answer :=
  match ps with
  | [] => .next s
  | p :: rest =>
    match tick p s with
    | .next t => ticks rest t
    | .fault f => .fault f
    | .refused r => .refused r

end Sys2Proof.Machine
end

