-- ==== Sys2Proof/Machine/Loader.lean ====
section
/-! DEFINITION. The host's side of the boundary: the program file (30_encoding.md R56), the loader's errors
(60_exceptions.md R115) and the boot sequence that gives the launch state (70_reset_and_hazards.md R128). The loader is
outside the engine (00_scope.md R4); what it may do to the engine is the load port and `run`. -/

namespace Sys2Proof.Machine

/-- LoadError (60_exceptions.md R115): raised before any instruction executes; it has no cause code. -/
inductive LoadError
  /-- "bad file path": there is no file to read. -/
  | badFilePath
  /-- "unparsable literal": the token is not a base-2 integer literal. -/
  | badToken (token : List Char)
  /-- A literal above 255 (30_encoding.md R56, D15). -/
  | literalTooLarge (token : List Char)
  /-- "program too large": more than 256 valid lines. -/
  | programTooLarge
  deriving DecidableEq, Repr

/-- The white space a line is trimmed of (log 11). -/
def isBlank (c : Char) : Bool :=
  c == ' ' || c == '\t' || c == '\r' || c == '\n' || c == Char.ofNat 11 || c == Char.ofNat 12

/-- Cut a text at its line ends. -/
def splitLines (text : List Char) : List (List Char) :=
  match text with
  | [] => [[]]
  | c :: rest =>
    match splitLines rest with
    | [] => [[c]]
    | line :: more => if c = '\n' then [] :: line :: more else (c :: line) :: more

/-- The first token of a line that is neither blank nor a comment (30_encoding.md R56). -/
def lineToken (line : List Char) : Option (List Char) :=
  match line.dropWhile isBlank with
  | [] => none
  | c :: rest => if c = '#' then none else some ((c :: rest).takeWhile fun d => !isBlank d)

/-- The value of a base-2 integer literal: one or more of the digits 0 and 1, most significant first (00_scope.md R8). -/
def binaryValue (token : List Char) : Option Nat :=
  if token = [] || !(token.all fun c => c = '0' || c = '1') then none
  else some (token.foldl (fun n c => 2 * n + if c = '1' then 1 else 0) 0)

/-- The byte of a token, or its LoadError (30_encoding.md R56): a token of fewer than 8 digits denotes its value. -/
def tokenByte (token : List Char) : Except LoadError Byte :=
  match binaryValue token with
  | none => .error (.badToken token)
  | some n => if n > 255 then .error (.literalTooLarge token) else .ok (BitVec.ofNat 8 n)

/-- The bytes of the tokens in order, or the first LoadError. -/
def tokensBytes (tokens : List (List Char)) : Except LoadError (List Byte) :=
  match tokens with
  | [] => .ok []
  | t :: rest =>
    match tokenByte t with
    | .error e => .error e
    | .ok v =>
      match tokensBytes rest with
      | .error e => .error e
      | .ok vs => .ok (v :: vs)

/-- A program must fit in memory (30_encoding.md R56, 70_reset_and_hazards.md R128). -/
def fitsMemory (bytes : List Byte) : Except LoadError (List Byte) :=
  if bytes.length > Config.memSize then .error .programTooLarge else .ok bytes

/-- The program bytes of a program file given as its lines (30_encoding.md R56). -/
def programOfLines (lines : List (List Char)) : Except LoadError (List Byte) :=
  match tokensBytes (lines.filterMap lineToken) with
  | .error e => .error e
  | .ok bytes => fitsMemory bytes

/-- The program bytes of a program file; `none` is a path that names no file (60_exceptions.md R115). -/
def programOfFile (file : Option (List Char)) : Except LoadError (List Byte) :=
  match file with
  | none => .error .badFilePath
  | some text => programOfLines (splitLines text)

/-- Write the program bytes through the load port at successive addresses (30_encoding.md R56, 10_state.md R28). -/
def loadBytes (k : Nat) (bytes : List Byte) (s : State) : State :=
  match bytes with
  | [] => s
  | v :: rest => loadBytes (k + 1) rest (s.onLoad (BitVec.ofNat 8 k) v)

/-- The launch state of a run: reset, the program loaded from `LOAD_BASE`, `run` (70_reset_and_hazards.md R128), for the given
value of `EXT_ALU`. A program of more than 256 bytes has no launch state (93_implementation_defined.md U1). -/
def launch (ext : Bool) (program : List Byte) : Except LoadError State :=
  match fitsMemory program with
  | .error e => .error e
  | .ok bytes => .ok (loadBytes Config.loadBase bytes { State.reset with extAlu := ext }).onRun

/-- From the program file to the launch state; after a LoadError the host does not assert `run` (60_exceptions.md R115), so
there is none. -/
def boot (ext : Bool) (file : Option (List Char)) : Except LoadError State :=
  match programOfFile file with
  | .error e => .error e
  | .ok bytes => launch ext bytes

end Sys2Proof.Machine
end

