-- ==== Sys2Proof/Safety.lean ====
section
/-! DEFINITION. What counts as a safe state and a safe run, in the terms the statements use. -/

namespace Sys2Proof.Machine

/-- The invariant of the machine: it holds at reset and every step and every input keeps it. -/
structure State.Inv (s : State) : Prop where
  /-- Memory is in canonical form: keys inside the 256 cells (20_memory.md R31), one list for each content. -/
  memCanonical : s.mem.wf = true
  /-- A recorded fault has halted the engine (60_exceptions.md R110). -/
  faultHalts : ∀ r, s.fault = some r → s.engine = .halted
  /-- The record names the `pc` the halt left and the opcode byte there (10_state.md R19, 40_dispatcher.md R68). -/
  faultAtPc : ∀ r, s.fault = some r → r.fpc = s.pc ∧ r.fop = s.readMem s.pc
  /-- AluError is unreachable (60_exceptions.md R106). -/
  noAluError : ∀ r, s.fault = some r → r.cause ≠ .aluError
  /-- A clean halt leaves `pc` at the HLT (40_dispatcher.md R68, 44_data_movement.md R93). -/
  cleanHaltAtHlt : s.engine = .halted → s.fault = none → s.readMem s.pc = 0x01

/-- The state has taken the fault `c` from the state `s`, and nothing else happened (60_exceptions.md R110). -/
def FaultedFrom (c : Cause) (s t : State) : Prop :=
  t = { s with engine := .halted, fault := some ⟨c, s.pc, s.readMem s.pc⟩ }

/-- The stack guard of each instruction, from the table of 60_exceptions.md R112 with R107: the stack pointer would leave
0..255. -/
def stackFaults (i : Instr) (s : State) : Bool :=
  match i with
  | .push _ | .call _ => s.sp == 0x00
  | .pop a => (if a.toNat = 7 then s.readMem s.sp else s.sp) == 0xFF
  | .ret => s.sp == 0xFF
  | .hlt | .ldi _ _ | .prn _ | .mul _ _ | .add _ _ | .cmp _ _ | .jeq _ | .jmp _ | .jne _ | .sub _ _ | .and _ _ | .or _ _
  | .xor _ _ | .shl _ _ | .shr _ _ => false

/-- The addresses at which the successor or the return address is 256, from the last column of the table of
60_exceptions.md R112. -/
def successorFaults (i : Instr) (s : State) : Bool :=
  match i with
  | .ldi _ _ | .mul _ _ | .add _ _ | .cmp _ _ | .sub _ _ | .and _ _ | .or _ _ | .xor _ _ | .shl _ _ | .shr _ _ => s.pc == 253
  | .prn _ | .push _ | .pop _ | .call _ => s.pc == 254
  | .jeq _ => s.pc == 254 && !s.flags.e
  | .jne _ => s.pc == 254 && s.flags.e
  | .hlt | .ret | .jmp _ => false

/-- The register a legal operand byte names: the byte's value, which is at most 7. -/
def targetOf (a : Byte) (s : State) : Addr := s.reg ⟨a.toNat % 8, Nat.mod_lt _ (by decide)⟩

/-- The new `pc` of an instruction that completes, from the table of 10_state.md R16; CALL reads its register after the
push (42_stack.md R81). -/
def newPc (i : Instr) (s : State) : Addr :=
  match i with
  | .hlt => s.pc
  | .ret => s.readMem s.sp
  | .prn _ | .push _ | .pop _ => s.pc + 2
  | .ldi _ _ | .mul _ _ | .add _ _ | .cmp _ _ | .sub _ _ | .and _ _ | .or _ _ | .xor _ _ | .shl _ _ | .shr _ _ => s.pc + 3
  | .jmp a => targetOf a s
  | .call a => if a.toNat = 7 then s.sp - 1 else targetOf a s
  | .jeq a => if s.flags.e then targetOf a s else s.pc + 2
  | .jne a => if s.flags.e then s.pc + 2 else targetOf a s

/-- What a run can depend on: everything but `L`, `G`, the fault record and the output, which no instruction reads
(10_state.md R17, R19, R21). -/
def readable (s : State) : Memory × Vector Byte 8 × Addr × Bool × Engine × Bool :=
  (s.mem, s.regs, s.pc, s.flags.e, s.engine, s.extAlu)

/-- An instruction completed: it neither raised a fault nor touched the record. -/
def Completed (s t : State) : Prop := t.fault = s.fault ∧ t.engine = s.engine

/-- What a line of a program file says, in the words of 30_encoding.md R56: nothing (`none`), or its first token. White space
is `isBlank` (log 11). -/
inductive LineMeans : List Char → Option (List Char) → Prop
  /-- "empty after trimming whitespace". -/
  | blank (line : List Char) (h : ∀ c ∈ line, isBlank c = true) : LineMeans line none
  /-- "its first non-whitespace character is `#`". -/
  | comment (margin text : List Char) (h : ∀ c ∈ margin, isBlank c = true) : LineMeans (margin ++ '#' :: text) none
  /-- "the first whitespace-delimited token"; the text after it is ignored. -/
  | token (margin word text : List Char) (h : ∀ c ∈ margin, isBlank c = true) (hword : word ≠ [])
      (hsolid : ∀ c ∈ word, isBlank c = false) (hhash : word.head? ≠ some '#') (htext : ∀ c, text.head? = some c → isBlank c = true) :
      LineMeans (margin ++ (word ++ text)) (some word)

/-- The token is a base-2 integer literal: digits 0 and 1, at least one (30_encoding.md R56, log 11). -/
def BinaryLiteral (token : List Char) : Prop := token ≠ [] ∧ ∀ c ∈ token, c = '0' ∨ c = '1'

/-- The value of a literal by the places of its digits, the most significant first (00_scope.md R8). -/
def placeValue (token : List Char) : Nat :=
  match token with
  | [] => 0
  | c :: rest => (if c = '1' then 2 ^ rest.length else 0) + placeValue rest

/-- The token denotes a byte (30_encoding.md R56, D15). -/
def DenotesByte (token : List Char) : Prop := BinaryLiteral token ∧ placeValue token ≤ 255

/-- A program file by its lines, each beside what it says (30_encoding.md R56). -/
def FileOfLines (lines : List (List Char × Option (List Char))) (text : List Char) : Prop :=
  lines ≠ [] ∧ (∀ q ∈ lines, '\n' ∉ q.1 ∧ LineMeans q.1 q.2) ∧ text = List.intercalate ['\n'] (lines.map Prod.fst)

/-- `k` steps one after another (40_dispatcher.md R59), stopping where no step exists. -/
def run (k : Nat) (s : State) : Answer :=
  match k with
  | 0 => .next s
  | k + 1 =>
    match step s with
    | .next t => run k t
    | .fault f => .fault f
    | .refused r => .refused r

/-- The machine runs `k` steps and ends in a clean halt (00_scope.md R12): the safe end of a run. -/
def HaltsCleanlyIn (k : Nat) (s : State) : Prop := ∃ t, run k s = .next t ∧ t.cleanHalt = true

end Sys2Proof.Machine
end

