-- ==== Sys2Proof/Certificates/Slice0/Obligations.lean ====
section
/-! DEFINITION. The statements for the provers. A docstring names the rule a statement formalises; where the rule carries the
spec's own marker (a decision D<n>, an inference "derived", general knowledge) or the statement rests on a choice of the
model's log, the docstring says so and the basis in OBLIGATIONS.json is 'derived'. In a statement about one instruction `r`,
`ra`, `rb` are the registers that legal operand bytes name, and the clauses cover every value of `pc` and every operand
byte. -/

open Sys2Proof Sys2Proof.Machine

/-! ### Encoding and decoding -/

/-- DERIVED from 30_encoding.md sections 1, 2 and 4 (EXT_ALU: log 1). Decode and encode agree: a list of bytes decodes to `i`
with `rest` left over exactly when it is the bytes of `i` followed by `rest` and `i` is registered. -/
def Obligations.DecodeEncodeAgree : Prop :=
  ∀ (ext : Bool) (bytes rest : List Byte) (i : Instr),
    decode ext bytes = .ok (i, rest) ↔ bytes = encode i ++ rest ∧ i.registered ext = true

/-- DERIVED from 30_encoding.md sections 1 and 2 (the table's thirteen rows with their lengths, and that the set is closed; that
the operand listed first is the byte after the opcode is the spec's inference, "derived: from "operand bytes immediately
following"", log 8). -/
def Obligations.OpcodeTableRows : Prop :=
  ∀ (a b : Byte) (rest : List Byte),
    decode false (0b00000001 :: rest) = .ok (.hlt, rest) ∧
    decode false (0b10000010 :: a :: b :: rest) = .ok (.ldi a b, rest) ∧
    decode false (0b01000111 :: a :: rest) = .ok (.prn a, rest) ∧
    decode false (0b10100010 :: a :: b :: rest) = .ok (.mul a b, rest) ∧
    decode false (0b01000101 :: a :: rest) = .ok (.push a, rest) ∧
    decode false (0b01000110 :: a :: rest) = .ok (.pop a, rest) ∧
    decode false (0b01010000 :: a :: rest) = .ok (.call a, rest) ∧
    decode false (0b00010001 :: rest) = .ok (.ret, rest) ∧
    decode false (0b10100000 :: a :: b :: rest) = .ok (.add a b, rest) ∧
    decode false (0b10100111 :: a :: b :: rest) = .ok (.cmp a b, rest) ∧
    decode false (0b01010101 :: a :: rest) = .ok (.jeq a, rest) ∧
    decode false (0b01010100 :: a :: rest) = .ok (.jmp a, rest) ∧
    decode false (0b01010110 :: a :: rest) = .ok (.jne a, rest) ∧
    (∀ op : Byte, op ∉ [0x01, 0x82, 0x47, 0xA2, 0x45, 0x46, 0x50, 0x11, 0xA0, 0xA7, 0x55, 0x54, 0x56] →
      decode false (op :: rest) = .error (.unknownOpcode op))

/-- DERIVED from 30_encoding.md section 4 (general knowledge G1): the six extension rows decode when `EXT_ALU` is true, and are
unknown opcodes when it is false. -/
def Obligations.ExtensionRowsNeedParameter : Prop :=
  ∀ (a b : Byte) (rest : List Byte),
    decode true (0b10100001 :: a :: b :: rest) = .ok (.sub a b, rest) ∧
    decode true (0b10101000 :: a :: b :: rest) = .ok (.and a b, rest) ∧
    decode true (0b10101010 :: a :: b :: rest) = .ok (.or a b, rest) ∧
    decode true (0b10101011 :: a :: b :: rest) = .ok (.xor a b, rest) ∧
    decode true (0b10101100 :: a :: b :: rest) = .ok (.shl a b, rest) ∧
    decode true (0b10101101 :: a :: b :: rest) = .ok (.shr a b, rest) ∧
    (∀ op ∈ ([0xA1, 0xA8, 0xAA, 0xAB, 0xAC, 0xAD] : List Byte), decode false (op :: rest) = .error (.unknownOpcode op))

/-! ### The step -/

/-- DERIVED from 40_dispatcher.md section 2: when the engine is Running and the fetched bytes decode to `i`, the step is
`exec i`, with nothing around it: the Dispatcher itself never increments `pc`. -/
def Obligations.StepRunsDecodedInstruction : Prop :=
  ∀ (s : State) (i : Instr) (rest : List Byte),
    s.engine = .running → decode s.extAlu (fetchBytes s) = .ok (i, rest) → step s = exec i s

/-- DERIVED from 40_dispatcher.md section 2: when memory holds the bytes of a registered instruction from `pc` on, none of
them beyond address 255, the step is that instruction. -/
def Obligations.StepRunsBytesInMemory : Prop :=
  ∀ (s : State) (i : Instr),
    s.engine = .running → i.registered s.extAlu = true → s.pc.toNat + i.operandCount ≤ 255 →
    (∀ (k : Nat) (v : Byte), (encode i)[k]? = some v → s.readMem (BitVec.ofNat 8 (s.pc.toNat + k)) = v) →
    step s = exec i s

/-- STATED, 60_exceptions.md R105: an unregistered byte at `pc` is DispatchError, at any address, whatever follows it, and
the record names `pc` and the byte. -/
def Obligations.UnknownOpcodeIsDispatchError : Prop :=
  ∀ (s : State), s.engine = .running →
    s.readMem s.pc ∉ [0x01, 0x82, 0x47, 0xA2, 0x45, 0x46, 0x50, 0x11, 0xA0, 0xA7, 0x55, 0x54, 0x56] →
    (s.extAlu = true → s.readMem s.pc ∉ [0xA1, 0xA8, 0xAA, 0xAB, 0xAC, 0xAD]) →
    step s = .next { s with engine := .halted, fault := some ⟨.dispatchError, s.pc, s.readMem s.pc⟩ } ∧
      Cause.dispatchError.code = 1

/-- DERIVED from 40_dispatcher.md section 2 and 60_exceptions.md section 2 (decision D5): a registered opcode whose operand
bytes would lie beyond address 255 is PcRangeFault in the step. -/
def Obligations.OperandsPastMemoryEndFault : Prop :=
  ∀ (s : State) (i : Instr),
    s.engine = .running → i.registered s.extAlu = true → (encode i).head? = some (s.readMem s.pc) →
    255 < s.pc.toNat + i.operandCount →
    step s = .next { s with engine := .halted, fault := some ⟨.pcRangeFault, s.pc, s.readMem s.pc⟩ }

/-- DERIVED from 40_dispatcher.md section 1; the names of the two stops are the model's choice, log 3: no step exists while
the engine is Idle or Halted. -/
def Obligations.NoStepUnlessRunning : Prop :=
  ∀ (s : State),
    (s.engine = .idle → step s = .fault .engineIdle) ∧ (s.engine = .halted → step s = .fault .engineHalted)

/-- DERIVED from 10_state.md section 5 and 60_exceptions.md section 3 (decision D9): every step keeps the machine Running and
its record as it was, or is the HLT at `pc` and changes `engine` alone, or takes one fault and changes `engine` and the record
alone. -/
def Obligations.StepCompletesHaltsOrFaults : Prop :=
  ∀ (s t : State), step s = .next t →
    (t.engine = .running ∧ t.fault = s.fault) ∨
    (s.readMem s.pc = 0x01 ∧ t = { s with engine := .halted }) ∨
    (∃ c, t = { s with engine := .halted, fault := some ⟨c, s.pc, s.readMem s.pc⟩ })

/-! ### Data movement -/

/-- STATED, 44_data_movement.md R91. -/
def Obligations.LdiLoadsLiteral : Prop :=
  ∀ (a b : Byte) (s : State),
    (∀ ext rest, decode ext (0x82 :: a :: b :: rest) = .ok (.ldi a b, rest)) ∧
    (∀ r : RegIdx, a.toNat = r.val → s.pc.toNat ≤ 252 →
      exec (.ldi a b) s = .next { s with regs := s.regs.set r.val b, pc := s.pc + 3 }) ∧
    (254 ≤ s.pc.toNat → exec (.ldi a b) s = .next (s.enterFault .pcRangeFault)) ∧
    (a.toNat ≤ 7 → s.pc.toNat = 253 → exec (.ldi a b) s = .next (s.enterFault .pcRangeFault)) ∧
    (7 < a.toNat → s.pc.toNat ≤ 253 → exec (.ldi a b) s = .next (s.enterFault .regIndexFault))

/-- STATED, 44_data_movement.md R92: the value is appended to `out`, one pulse carries it, the host prints it as an unsigned
decimal numeral on a line of its own (whatever `lineEnd` is), and a PRN that faults emits nothing. -/
def Obligations.PrnEmitsRegister : Prop :=
  ∀ (a : Byte) (s : State),
    (∀ ext rest, decode ext (0x47 :: a :: rest) = .ok (.prn a, rest)) ∧
    (∀ r : RegIdx, a.toNat = r.val → s.pc.toNat ≤ 253 →
      ∃ t, exec (.prn a) s = .next t ∧ t = { s with out := s.out ++ [s.reg r], pc := s.pc + 2 } ∧
        prnPulse s t = some (s.reg r) ∧ t.outputText = s.outputText ++ (toString (s.reg r).toNat ++ lineEnd)) ∧
    (s.pc.toNat = 255 → exec (.prn a) s = .next (s.enterFault .pcRangeFault)) ∧
    (a.toNat ≤ 7 → s.pc.toNat = 254 → exec (.prn a) s = .next (s.enterFault .pcRangeFault)) ∧
    (7 < a.toNat → s.pc.toNat ≤ 254 → exec (.prn a) s = .next (s.enterFault .regIndexFault)) ∧
    (∀ c, (s.enterFault c).out = s.out)

/-- STATED, 44_data_movement.md R93: HLT at any address halts with the record, `pc` and everything else as they were, so cleanly
when no fault is recorded; no step exists after it, and only `rst` leaves Halted. -/
def Obligations.HltHaltsCleanly : Prop :=
  ∀ (s : State),
    (∀ ext rest, decode ext (0x01 :: rest) = .ok (.hlt, rest)) ∧
    exec .hlt s = .next { s with engine := .halted } ∧
    (∀ t, exec .hlt s = .next t → (s.fault = none → t.cleanHalt = true) ∧ (∀ u, step t ≠ .next u) ∧
      ∀ p : Pins, p.rst = false → tick p t = .next t)

/-! ### Branches -/

/-- STATED, 43_branch.md R86. -/
def Obligations.JmpJumpsToRegister : Prop :=
  ∀ (a : Byte) (s : State),
    (∀ ext rest, decode ext (0x54 :: a :: rest) = .ok (.jmp a, rest)) ∧
    (∀ r : RegIdx, a.toNat = r.val → s.pc.toNat ≤ 254 → exec (.jmp a) s = .next { s with pc := s.reg r }) ∧
    (s.pc.toNat = 255 → exec (.jmp a) s = .next (s.enterFault .pcRangeFault)) ∧
    (7 < a.toNat → s.pc.toNat ≤ 254 → exec (.jmp a) s = .next (s.enterFault .regIndexFault))

/-- STATED, 43_branch.md R87. -/
def Obligations.JeqJumpsWhenEqual : Prop :=
  ∀ (a : Byte) (s : State),
    (∀ ext rest, decode ext (0x55 :: a :: rest) = .ok (.jeq a, rest)) ∧
    (∀ r : RegIdx, a.toNat = r.val → s.flags.e = true → s.pc.toNat ≤ 254 →
      exec (.jeq a) s = .next { s with pc := s.reg r }) ∧
    (a.toNat ≤ 7 → s.flags.e = false → s.pc.toNat ≤ 253 → exec (.jeq a) s = .next { s with pc := s.pc + 2 }) ∧
    (a.toNat ≤ 7 → s.flags.e = false → s.pc.toNat = 254 → exec (.jeq a) s = .next (s.enterFault .pcRangeFault)) ∧
    (s.pc.toNat = 255 → exec (.jeq a) s = .next (s.enterFault .pcRangeFault)) ∧
    (7 < a.toNat → s.pc.toNat ≤ 254 → exec (.jeq a) s = .next (s.enterFault .regIndexFault))

/-- STATED, 43_branch.md R88. -/
def Obligations.JneJumpsWhenNotEqual : Prop :=
  ∀ (a : Byte) (s : State),
    (∀ ext rest, decode ext (0x56 :: a :: rest) = .ok (.jne a, rest)) ∧
    (∀ r : RegIdx, a.toNat = r.val → s.flags.e = false → s.pc.toNat ≤ 254 →
      exec (.jne a) s = .next { s with pc := s.reg r }) ∧
    (a.toNat ≤ 7 → s.flags.e = true → s.pc.toNat ≤ 253 → exec (.jne a) s = .next { s with pc := s.pc + 2 }) ∧
    (a.toNat ≤ 7 → s.flags.e = true → s.pc.toNat = 254 → exec (.jne a) s = .next (s.enterFault .pcRangeFault)) ∧
    (s.pc.toNat = 255 → exec (.jne a) s = .next (s.enterFault .pcRangeFault)) ∧
    (7 < a.toNat → s.pc.toNat ≤ 254 → exec (.jne a) s = .next (s.enterFault .regIndexFault))

/-! ### The ALU -/

/-- DERIVED from 41_alu.md section 2 (decision D3: the sum is reduced modulo 256): ADD's result and everything it leaves. -/
def Obligations.AddWrapsModulo256 : Prop :=
  ∀ (a b : Byte) (ra rb : RegIdx) (s : State), a.toNat = ra.val → b.toNat = rb.val → s.pc.toNat ≤ 252 →
    ∃ v : Byte, v.toNat = ((s.reg ra).toNat + (s.reg rb).toNat) % 256 ∧
      exec (.add a b) s = .next { s with regs := s.regs.set ra.val v, pc := s.pc + 3 }

/-- DERIVED from 41_alu.md section 2 (decision D3: the product is reduced modulo 256). -/
def Obligations.MulWrapsModulo256 : Prop :=
  ∀ (a b : Byte) (ra rb : RegIdx) (s : State), a.toNat = ra.val → b.toNat = rb.val → s.pc.toNat ≤ 252 →
    ∃ v : Byte, v.toNat = ((s.reg ra).toNat * (s.reg rb).toNat) % 256 ∧
      exec (.mul a b) s = .next { s with regs := s.regs.set ra.val v, pc := s.pc + 3 }

/-- DERIVED from 41_alu.md section 2 (decision D2 and conflict C1: which of `L` and `G`): CMP writes 1 to exactly one flag,
keeps the other two, and changes nothing else but `pc`; the comparison is unsigned. -/
def Obligations.CmpSetsOneFlag : Prop :=
  ∀ (a b : Byte) (ra rb : RegIdx) (s : State), a.toNat = ra.val → b.toNat = rb.val → s.pc.toNat ≤ 252 →
    ((s.reg ra).toNat = (s.reg rb).toNat →
      exec (.cmp a b) s = .next { s with flags := ⟨true, s.flags.l, s.flags.g⟩, pc := s.pc + 3 }) ∧
    ((s.reg rb).toNat < (s.reg ra).toNat →
      exec (.cmp a b) s = .next { s with flags := ⟨s.flags.e, s.flags.l, true⟩, pc := s.pc + 3 }) ∧
    ((s.reg ra).toNat < (s.reg rb).toNat →
      exec (.cmp a b) s = .next { s with flags := ⟨s.flags.e, true, s.flags.g⟩, pc := s.pc + 3 })

/-- DERIVED from 45_alu_extension.md section 2 (general knowledge G1, decision D3): SUB with `EXT_ALU`. -/
def Obligations.SubWrapsModulo256 : Prop :=
  ∀ (a b : Byte) (ra rb : RegIdx) (s : State), a.toNat = ra.val → b.toNat = rb.val → s.pc.toNat ≤ 252 → s.extAlu = true →
    ∃ v : Byte, (v.toNat : Int) = ((s.reg ra).toNat - (s.reg rb).toNat : Int) % 256 ∧
      exec (.sub a b) s = .next { s with regs := s.regs.set ra.val v, pc := s.pc + 3 }

/-- DERIVED from 45_alu_extension.md section 2 (general knowledge G1): AND, OR and XOR with `EXT_ALU`, bit by bit. -/
def Obligations.BitwiseResultsPerBit : Prop :=
  ∀ (a b : Byte) (ra rb : RegIdx) (s : State), a.toNat = ra.val → b.toNat = rb.val → s.pc.toNat ≤ 252 → s.extAlu = true →
    (∃ v : Byte, (∀ k < 8, v.getLsbD k = ((s.reg ra).getLsbD k && (s.reg rb).getLsbD k)) ∧
      exec (.and a b) s = .next { s with regs := s.regs.set ra.val v, pc := s.pc + 3 }) ∧
    (∃ v : Byte, (∀ k < 8, v.getLsbD k = ((s.reg ra).getLsbD k || (s.reg rb).getLsbD k)) ∧
      exec (.or a b) s = .next { s with regs := s.regs.set ra.val v, pc := s.pc + 3 }) ∧
    (∃ v : Byte, (∀ k < 8, v.getLsbD k = ((s.reg ra).getLsbD k ^^ (s.reg rb).getLsbD k)) ∧
      exec (.xor a b) s = .next { s with regs := s.regs.set ra.val v, pc := s.pc + 3 })

/-- DERIVED from 45_alu_extension.md section 2 (general knowledge G1, decision D18: the whole 8-bit count is used, so a count
of 8 or more gives 0): SHL and SHR with `EXT_ALU`. -/
def Obligations.ShiftsFillWithZeros : Prop :=
  ∀ (a b : Byte) (ra rb : RegIdx) (s : State), a.toNat = ra.val → b.toNat = rb.val → s.pc.toNat ≤ 252 → s.extAlu = true →
    (∃ v : Byte, v.toNat = ((s.reg ra).toNat * 2 ^ (s.reg rb).toNat) % 256 ∧ (8 ≤ (s.reg rb).toNat → v = 0) ∧
      exec (.shl a b) s = .next { s with regs := s.regs.set ra.val v, pc := s.pc + 3 }) ∧
    (∃ v : Byte, v.toNat = (s.reg ra).toNat / 2 ^ (s.reg rb).toNat ∧ (8 ≤ (s.reg rb).toNat → v = 0) ∧
      exec (.shr a b) s = .next { s with regs := s.regs.set ra.val v, pc := s.pc + 3 })

/-! ### The stack -/

/-- STATED, 42_stack.md R82. -/
def Obligations.RetPopsIntoPc : Prop :=
  ∀ (s : State),
    (∀ ext rest, decode ext (0x11 :: rest) = .ok (.ret, rest)) ∧
    ((s.reg 7).toNat ≤ 254 →
      exec .ret s = .next { s with pc := s.readMem (s.reg 7), regs := s.regs.set 7 (s.reg 7 + 1) }) ∧
    ((s.reg 7).toNat = 255 → exec .ret s = .next (s.enterFault .stackFault))

/-- DERIVED from 42_stack.md section 2 (the value pushed by PUSH R7 is the decremented stack pointer: the spec's inference
"derived: from the statement order"). -/
def Obligations.PushStoresBelowTop : Prop :=
  ∀ (a : Byte) (r : RegIdx) (s : State), a.toNat = r.val → s.pc.toNat ≤ 253 → (s.reg 7).toNat ≠ 0 →
    exec (.push a) s = .next { s with
      regs := s.regs.set 7 (s.reg 7 - 1)
      mem := s.mem.write (s.reg 7 - 1) (if r = 7 then s.reg 7 - 1 else s.reg r)
      pc := s.pc + 2 }

/-- DERIVED from 42_stack.md section 2 (POP R7 ends as the popped byte plus 1: the spec's inference "derived: from the
statement order"). -/
def Obligations.PopLoadsTop : Prop :=
  ∀ (a : Byte) (r : RegIdx) (s : State), a.toNat = r.val → s.pc.toNat ≤ 253 →
    (r ≠ 7 → (s.reg 7).toNat ≠ 255 →
      exec (.pop a) s = .next { s with
        regs := (s.regs.set r.val (s.readMem (s.reg 7))).set 7 (s.reg 7 + 1)
        pc := s.pc + 2 }) ∧
    (r = 7 → (s.readMem (s.reg 7)).toNat ≠ 255 →
      exec (.pop a) s = .next { s with
        regs := s.regs.set 7 (s.readMem (s.reg 7) + 1)
        pc := s.pc + 2 })

/-- DERIVED from 42_stack.md section 2 (CALL R7 jumps to the new top: the spec's inference "derived: from push ... then set
PC"). The target of `CALL R7` is register 7 after the push. -/
def Obligations.CallPushesReturnAddress : Prop :=
  ∀ (a : Byte) (r : RegIdx) (s : State), a.toNat = r.val → s.pc.toNat ≤ 253 → (s.reg 7).toNat ≠ 0 →
    exec (.call a) s = .next { s with
      regs := s.regs.set 7 (s.reg 7 - 1)
      mem := s.mem.write (s.reg 7 - 1) (s.pc + 2)
      pc := if r = 7 then s.reg 7 - 1 else s.reg r }

/-- DERIVED from 42_stack.md section 3 (the pairing laws are the spec's inference from its rules): a POP that finds the stack
pointer and the pushed cell as PUSH left them gives the register back and returns the stack pointer. The premises that both
instructions are reached Running and that memory is canonical rule out states no run reaches. -/
def Obligations.PopUndoesPush : Prop :=
  ∀ (a : Byte) (r : RegIdx) (s t u : State), a.toNat = r.val → r ≠ 7 → s.mem.wf = true →
    s.engine = .running → exec (.push a) s = .next t → t.engine = .running →
    u.reg 7 = t.reg 7 → u.readMem (t.reg 7) = t.readMem (t.reg 7) → u.pc.toNat ≤ 253 →
    ∃ v, exec (.pop a) u = .next v ∧ v.reg r = s.reg r ∧ v.reg 7 = s.reg 7 ∧ v.pc = u.pc + 2

/-- DERIVED from 42_stack.md section 3 (the pairing laws are the spec's inference from its rules): CALL transfers control to
its register, and a RET that finds the stack pointer and the cell of the return address as CALL left them resumes after the
CALL with the stack pointer as before it. -/
def Obligations.RetUndoesCall : Prop :=
  ∀ (a : Byte) (r : RegIdx) (s t u : State), a.toNat = r.val → s.mem.wf = true →
    s.engine = .running → exec (.call a) s = .next t → t.engine = .running →
    u.reg 7 = t.reg 7 → u.readMem (t.reg 7) = t.readMem (t.reg 7) →
    (r ≠ 7 → t.pc = s.reg r) ∧
      ∃ v, exec .ret u = .next v ∧ v.pc.toNat = s.pc.toNat + 2 ∧ v.reg 7 = s.reg 7

/-! ### Faults -/

/-- DERIVED from 60_exceptions.md section 3 (decisions D5, D6, D8; R112's table): what every instruction answers, in the
order of priority: PcRangeFault for the operand bytes, RegIndexFault, StackFault, PcRangeFault for the successor or return
address; with none of the four conditions and a registered instruction it completes, with the new `pc` of R16's table. -/
def Obligations.FaultPriorityAndCompletion : Prop :=
  ∀ (i : Instr) (s : State),
    (255 < s.pc.toNat + i.operandCount → exec i s = .next (s.enterFault .pcRangeFault)) ∧
    (s.pc.toNat + i.operandCount ≤ 255 →
      (i.wellFormed = false → exec i s = .next (s.enterFault .regIndexFault)) ∧
      (i.wellFormed = true →
        (stackFaults i s = true → exec i s = .next (s.enterFault .stackFault)) ∧
        (stackFaults i s = false →
          (successorFaults i s = true → exec i s = .next (s.enterFault .pcRangeFault)) ∧
          (successorFaults i s = false → i.registered s.extAlu = true →
            ∃ t, exec i s = .next t ∧ t.fault = s.fault ∧ t.pc = newPc i s ∧
              t.engine = if i = .hlt then .halted else s.engine))))

/-- DERIVED from 42_stack.md section 1 and 60_exceptions.md section 2 (decision D4): PUSH and CALL with the stack pointer at 0,
RET with it at 255, POP whose increment of register 7 would give 256: StackFault with nothing written, whatever `pc` is as
long as the operand byte exists. -/
def Obligations.StackFaultAtMemoryEnds : Prop :=
  ∀ (a : Byte) (r : RegIdx) (s : State), a.toNat = r.val → s.pc.toNat ≤ 254 →
    (s.reg 7 = 0x00 → exec (.push a) s = .next (s.enterFault .stackFault) ∧
      exec (.call a) s = .next (s.enterFault .stackFault)) ∧
    (s.reg 7 = 0xFF → exec .ret s = .next (s.enterFault .stackFault)) ∧
    (r ≠ 7 → s.reg 7 = 0xFF → exec (.pop a) s = .next (s.enterFault .stackFault)) ∧
    (r = 7 → s.readMem (s.reg 7) = 0xFF → exec (.pop a) s = .next (s.enterFault .stackFault))

/-- DERIVED from 60_exceptions.md section 3 (decision D9): taking a fault halts the engine, records the cause, the `pc` and
the opcode byte there, and changes nothing else. -/
def Obligations.FaultEntryIsPrecise : Prop :=
  ∀ (c : Cause) (s : State),
    raise c s = .next { s with engine := .halted, fault := some ⟨c, s.pc, s.readMem s.pc⟩ } ∧
    (∀ t, raise c s = .next t →
      t.mem = s.mem ∧ t.regs = s.regs ∧ t.pc = s.pc ∧ t.flags = s.flags ∧ t.out = s.out ∧ t.extAlu = s.extAlu)

/-- DERIVED from 60_exceptions.md section 2 and 40_dispatcher.md section 3: no step of any state raises AluError; an extension
instruction handed to the ALU with `EXT_ALU` false would, which is the model's choice, log 2. -/
def Obligations.AluErrorUnreachable : Prop :=
  (∀ (s t : State) (c : FaultRecord), step s = .next t → t.fault = some c → t.fault ≠ s.fault → c.cause ≠ .aluError) ∧
  (∀ (a b : Byte) (ra rb : RegIdx) (s : State), a.toNat = ra.val → b.toNat = rb.val → s.pc.toNat ≤ 252 → s.extAlu = false →
    ∀ i ∈ ([.sub a b, .and a b, .or a b, .xor a b, .shl a b, .shr a b] : List Instr),
      exec i s = .next (s.enterFault .aluError))

/-! ### Frames -/

/-- DERIVED from 41_alu.md, 44_data_movement.md and 45_alu_extension.md, section 2 of each: the frame of the instructions that
write one register: every other register, every byte of memory, every flag, the output; the record and the engine too unless
a fault is taken. -/
def Obligations.RegisterWriteFrame : Prop :=
  ∀ (a b : Byte) (i : Instr) (s t : State),
    i ∈ [.ldi a b, .add a b, .mul a b, .sub a b, .and a b, .or a b, .xor a b, .shl a b, .shr a b] →
    exec i s = .next t →
    (∀ r : RegIdx, r.val ≠ a.toNat → t.reg r = s.reg r) ∧ (∀ m : Addr, t.readMem m = s.readMem m) ∧
    t.flags = s.flags ∧ t.out = s.out ∧ t.extAlu = s.extAlu ∧ (Completed s t ∨ ∃ c, FaultedFrom c s t)

/-- DERIVED from 41_alu.md, 43_branch.md and 44_data_movement.md, section 2 of each: the frame of the instructions that write
neither a register nor memory. CMP alone may change flags, PRN alone the output, HLT alone (a fault apart) the engine. -/
def Obligations.NoRegisterWriteFrame : Prop :=
  ∀ (a b : Byte) (i : Instr) (s t : State),
    i ∈ [.cmp a b, .prn a, .jmp a, .jeq a, .jne a, .hlt] → exec i s = .next t →
    (∀ r : RegIdx, t.reg r = s.reg r) ∧ (∀ m : Addr, t.readMem m = s.readMem m) ∧
    (i ≠ .cmp a b → t.flags = s.flags) ∧ (i ≠ .prn a → t.out = s.out) ∧ t.extAlu = s.extAlu ∧
    (Completed s t ∨ (i = .hlt ∧ t.fault = s.fault ∧ t.engine = .halted) ∨ ∃ c, FaultedFrom c s t)

/-- DERIVED from 42_stack.md section 2: the frame of the storing instructions PUSH and CALL: every register but the stack
pointer; every byte of memory but the one at the address `State.pushAddr` computes; flags and output. The premise that memory
is canonical rules out lists no run produces. -/
def Obligations.StackStoreFrame : Prop :=
  ∀ (a : Byte) (i : Instr) (s t : State),
    i ∈ [.push a, .call a] → s.mem.wf = true → exec i s = .next t →
    (∀ r : RegIdx, r ≠ 7 → t.reg r = s.reg r) ∧
    (∀ p : Addr, s.pushAddr = p → ∀ m : Addr, m ≠ p → t.readMem m = s.readMem m) ∧
    t.flags = s.flags ∧ t.out = s.out ∧ t.extAlu = s.extAlu ∧ (Completed s t ∨ ∃ c, FaultedFrom c s t)

/-- DERIVED from 42_stack.md section 2: the frame of POP and RET: every register but the stack pointer and POP's destination;
every byte of memory; flags and output. -/
def Obligations.StackLoadFrame : Prop :=
  ∀ (a : Byte) (i : Instr) (s t : State),
    i ∈ [.pop a, .ret] → exec i s = .next t →
    (∀ r : RegIdx, r ≠ 7 → (i = .pop a → r.val ≠ a.toNat) → t.reg r = s.reg r) ∧
    (∀ m : Addr, t.readMem m = s.readMem m) ∧
    t.flags = s.flags ∧ t.out = s.out ∧ t.extAlu = s.extAlu ∧ (Completed s t ∨ ∃ c, FaultedFrom c s t)

/-! ### Flags and output over runs -/

/-- DERIVED from 41_alu.md sections 2 and 3 (decision D2 and conflict C1: which of `L` and `G` is set): CMP alone writes flags
and writes only 1, to the one flag of its outcome; a CMP that does not complete writes none; a flag that is 1 stays 1 over any
run, so once `E` is 1 every later JEQ jumps and every later JNE falls through; all are 0 after reset. -/
def Obligations.FlagsAreSticky : Prop :=
  State.reset.flags = ⟨false, false, false⟩ ∧
  (∀ (i : Instr) (s t : State), exec i s = .next t → (∀ a b, i ≠ .cmp a b) → t.flags = s.flags) ∧
  (∀ (a b : Byte) (s t : State), exec (.cmp a b) s = .next t → s.engine = .running →
    (t.engine ≠ .running → t.flags = s.flags) ∧
    (t.engine = .running → ∃ ra rb : RegIdx, a.toNat = ra.val ∧ b.toNat = rb.val ∧
      ((s.reg ra).toNat = (s.reg rb).toNat → t.flags = { s.flags with e := true }) ∧
      ((s.reg rb).toNat < (s.reg ra).toNat → t.flags = { s.flags with g := true }) ∧
      ((s.reg ra).toNat < (s.reg rb).toNat → t.flags = { s.flags with l := true }))) ∧
  (∀ (k : Nat) (s t : State), run k s = .next t →
    (s.flags.e = true → t.flags.e = true) ∧ (s.flags.l = true → t.flags.l = true) ∧ (s.flags.g = true → t.flags.g = true)) ∧
  (∀ (k : Nat) (a : Byte) (r : RegIdx) (s t : State), run k s = .next t → s.flags.e = true → a.toNat = r.val →
    (t.pc.toNat ≤ 254 → exec (.jeq a) t = .next { t with pc := t.reg r }) ∧
    (t.pc.toNat ≤ 253 → exec (.jne a) t = .next { t with pc := t.pc + 2 }))

/-- DERIVED from 10_state.md section 9 and 44_data_movement.md section 2: a step either emits nothing, and then it is no PRN or
a PRN that a fault stops, or it is a PRN that completes, and then it appends its register's value to the output, once, and the
port shows one pulse with it. -/
def Obligations.OnlyPrnEmits : Prop :=
  ∀ (s t : State), step s = .next t →
    (t.out = s.out ∧ prnPulse s t = none ∧ ∀ a : Byte, fetchDecode s = .ok (.prn a) → t.engine = .halted ∧ t.fault ≠ none) ∨
    (∃ (a : Byte) (r : RegIdx), a.toNat = r.val ∧ fetchDecode s = .ok (.prn a) ∧ t.engine = .running ∧
      t.out = s.out ++ [s.reg r] ∧ prnPulse s t = some (s.reg r))

/-- DERIVED from 10_state.md sections 4 to 6 and 43_branch.md section 3: no run can learn `L`, `G`, the fault record or the
output: two states that agree on everything else step together for any number of steps, and keep agreeing. -/
def Obligations.LessGreaterAndOutputUnreadable : Prop :=
  ∀ (k : Nat) (s s' t : State), readable s = readable s' → run k s = .next t →
    ∃ t', run k s' = .next t' ∧ readable t = readable t'

/-- DERIVED from 40_dispatcher.md section 4 (the spec's inference that a program without HLT may run for ever): a JMP to its
own address, at any place it fits, leaves the whole state unchanged for any number of steps. -/
def Obligations.SelfJumpRunsForever : Prop :=
  ∀ (k : Nat) (a : Byte) (r : RegIdx) (s : State), s.engine = .running → s.pc.toNat ≤ 254 → a.toNat = r.val →
    s.readMem s.pc = 0x54 → s.readMem (s.pc + 1) = a → s.reg r = s.pc → run k s = .next s

/-! ### Memory -/

/-- STATED, 20_memory.md R32: MemRead gives a cell's content; MemWrite sets one cell and changes nothing else. The premise
that memory is canonical (log 5) rules out lists no run produces (see `CanonicalMemoryIsContent`, `StepKeepsInvariant`). -/
def Obligations.MemoryPrimitives : Prop :=
  ∀ (s : State) (a b : Addr) (v : Byte), s.mem.wf = true →
    (s.writeMem a v).readMem b = (if b = a then v else s.readMem b) ∧
    (s.writeMem a v) = { s with mem := (s.writeMem a v).mem }

/-- DERIVED from 20_memory.md section 1; the list form is the model's choice, log 5: a write keeps the canonical form, and
memories in that form that read the same at all 256 addresses are the same list, so equality of states is equality of
contents. -/
def Obligations.CanonicalMemoryIsContent : Prop :=
  (∀ (m : Memory) (a : Addr) (v : Byte), m.wf = true → (m.write a v).wf = true) ∧
  ∀ (m m' : Memory), m.wf = true → m'.wf = true → (∀ a : Addr, m.read a = m'.read a) → m = m'

/-! ### Reset, ports, boot -/

/-- DERIVED from 10_state.md section 8 and 70_reset_and_hazards.md section 1 (decisions D19, D20; that the parameter `EXT_ALU`
stays: log 1): `rst` replaces the state, from any state and over any other input, by the reset state, every component of which
has its stated value; with the default parameter it is `State.reset`. -/
def Obligations.ResetGivesStatedValues : Prop :=
  ∀ (p : Pins) (s : State), p.rst = true → ∃ t, tick p s = .next t ∧
    (∀ a : Addr, t.readMem a = 0x00) ∧ (∀ r : RegIdx, t.reg r = if r = 7 then 0xF4 else 0x00) ∧ t.pc = 0x00 ∧
    t.flags.e = false ∧ t.flags.l = false ∧ t.flags.g = false ∧ t.engine = .idle ∧ t.fault = none ∧ t.out = [] ∧
    t.extAlu = s.extAlu ∧ (s.extAlu = false → t = State.reset)

/-- DERIVED from 10_state.md section 9 (decisions D12, D20; a load and a `run` in one period: log 10): what the input ports do
at a step boundary, in every engine state. -/
def Obligations.InputPortsAct : Prop :=
  ∀ (p : Pins) (s : State),
    (p.rst = true → tick p s = .next { State.reset with extAlu := s.extAlu }) ∧
    (p.rst = false → s.engine = .running → tick p s = step s) ∧
    (p.rst = false → s.engine = .halted → tick p s = .next s) ∧
    (p.rst = false → s.engine = .idle →
      tick p s = .next { s with
        engine := if p.run then .running else .idle
        mem := if p.ldWe then s.mem.write p.ldAddr p.ldData else s.mem })

/-- DERIVED from 10_state.md section 9 (decisions D7, D11, D16): the status outputs and the exit status are views of `engine`,
`fault` and the flags. -/
def Obligations.StatusOutputViews : Prop :=
  ∀ (s : State),
    (s.statusPorts.stEngine = 0 ↔ s.engine = .idle) ∧ (s.statusPorts.stEngine = 1 ↔ s.engine = .running) ∧
    (s.statusPorts.stEngine = 2 ↔ s.engine = .halted) ∧
    (s.statusPorts.stCause = 0 ↔ s.fault = none) ∧
    (s.fault = none → s.statusPorts.stFpc = 0 ∧ s.statusPorts.stFop = 0) ∧
    (∀ r, s.fault = some r → s.statusPorts.stFpc = r.fpc ∧ s.statusPorts.stFop = r.fop ∧
      s.statusPorts.stCause.toNat = (match r.cause with
        | .dispatchError => 1 | .aluError => 2 | .stackFault => 3 | .pcRangeFault => 4 | .regIndexFault => 5)) ∧
    s.statusPorts.stFl.getLsbD 2 = s.flags.l ∧ s.statusPorts.stFl.getLsbD 1 = s.flags.g ∧
    s.statusPorts.stFl.getLsbD 0 = s.flags.e ∧
    (s.exitZero = some true ↔ s.engine = .halted ∧ s.fault = none) ∧
    (s.exitZero = some false ↔ s.engine = .halted ∧ s.fault ≠ none)

/-- STATED, 70_reset_and_hazards.md R128: the boot sequence gives a launch state for every program of at most 256 bytes: the
program at address 0 upward, every other cell 0, every other component as reset leaves it, the engine started; `EXT_ALU` is the model's argument. -/
def Obligations.LaunchStateOfProgram : Prop :=
  ∀ (ext : Bool) (program : List Byte), program.length ≤ 256 →
    ∃ s, launch ext program = .ok s ∧
      (∀ k : Nat, k < 256 → s.readMem (BitVec.ofNat 8 k) = program.getD k 0x00) ∧
      s = { State.reset with mem := s.mem, engine := .running, extAlu := ext }

/-- DERIVED from 30_encoding.md section 5 (decision D15; white space and the form of a literal: log 11): a file, whatever blank
lines, comments and text after the first token it holds, is accepted exactly when it has at most 256 tokens and each is a base-2
literal of at most 255; the bytes are the tokens' place values in order, and they are what `boot` launches. -/
def Obligations.LoaderAcceptsExactly : Prop :=
  ∀ (ext : Bool) (lines : List (List Char × Option (List Char))) (text : List Char), FileOfLines lines text →
    ((∃ program, programOfFile (some text) = .ok program) ↔
      (lines.filterMap Prod.snd).length ≤ 256 ∧ ∀ token ∈ lines.filterMap Prod.snd, DenotesByte token) ∧
    (∀ program, programOfFile (some text) = .ok program →
      program.map (fun v => v.toNat) = (lines.filterMap Prod.snd).map placeValue ∧
      boot ext (some text) = launch ext program)

/-! ### Invariants -/

/-- DERIVED from 10_state.md sections 1 and 8: the invariant holds right after reset. -/
def Obligations.ResetMeetsInvariant : Prop := State.reset.Inv

/-- DERIVED from 20_memory.md section 1, 40_dispatcher.md section 4 and 60_exceptions.md section 3: from every state that
meets the invariant, a step gives one that meets it: memory canonical and inside the 256 cells, a recorded fault halted and
naming the `pc` and opcode byte where the machine stopped, never AluError, and a clean halt at an HLT. -/
def Obligations.StepKeepsInvariant : Prop :=
  ∀ (s t : State), s.Inv → step s = .next t → t.Inv

/-- DERIVED from 10_state.md section 9 and 60_exceptions.md section 3: the invariant holds along every run of the machine with
its ports: whatever is loaded, whenever it is started or reset. -/
def Obligations.TicksKeepInvariant : Prop :=
  ∀ (ps : List Pins) (s t : State), s.Inv → ticks ps s = .next t → t.Inv

/-- DERIVED from 00_scope.md section 3 (log 1): no step and no input changes the parameter `EXT_ALU`, and while it is false no
step decodes an extension instruction. -/
def Obligations.ExtAluNeverChanges : Prop :=
  (∀ (ps : List Pins) (s t : State), ticks ps s = .next t → t.extAlu = s.extAlu) ∧
  (∀ (s : State) (i : Instr), s.extAlu = false → fetchDecode s = .ok i → i.isExtension = false)

/-! ### The program file -/

/-- DERIVED from 30_encoding.md section 5 (white space and line ends: log 11): the loader's two readings are the spec's. Cutting
a text gives lines without a line end that, joined by line ends, are the text; and the loader reads a line as exactly what
`LineMeans` says of it, so every text has the lines that `LoaderAcceptsExactly` asks for. -/
def Obligations.LoaderReadsLines : Prop :=
  (∀ text : List Char, splitLines text ≠ [] ∧ (∀ line ∈ splitLines text, '\n' ∉ line) ∧
    List.intercalate ['\n'] (splitLines text) = text) ∧
  (∀ (line : List Char) (meaning : Option (List Char)), lineToken line = meaning ↔ LineMeans line meaning)

/-- DERIVED from 30_encoding.md section 5 and 60_exceptions.md section 5 (decision D15; which of several errors is reported: log
11): the first token that denotes no byte is the LoadError and is named; a file of more than 256 good tokens and a path without a
file are LoadErrors; and after a LoadError there is no launch state. -/
def Obligations.LoaderReportsErrors : Prop :=
  (∀ (lines : List (List Char × Option (List Char))) (text : List Char), FileOfLines lines text →
    (∀ (good more : List (List Char)) (bad : List Char), lines.filterMap Prod.snd = good ++ bad :: more →
      (∀ token ∈ good, DenotesByte token) →
      (¬ BinaryLiteral bad → programOfFile (some text) = .error (.badToken bad)) ∧
      (BinaryLiteral bad → 255 < placeValue bad → programOfFile (some text) = .error (.literalTooLarge bad))) ∧
    (256 < (lines.filterMap Prod.snd).length → (∀ token ∈ lines.filterMap Prod.snd, DenotesByte token) →
      programOfFile (some text) = .error .programTooLarge)) ∧
  programOfFile none = .error .badFilePath ∧
  (∀ (ext : Bool) (file : Option (List Char)) (e : LoadError), programOfFile file = .error e → boot ext file = .error e)
end

