-- ==== Sys2Proof/Laws/State.lean ====
section
/-! SUPPORT. One lemma per field of the state per update, each true by `rfl`, so that no later proof unfolds a record update;
and the laws of the register accessors. -/

namespace Sys2Proof.Machine

variable (s : State)

@[simp] theorem State.setReg_mem (i : RegIdx) (v : Byte) : (s.setReg i v).mem = s.mem := rfl
@[simp] theorem State.setReg_regs (i : RegIdx) (v : Byte) : (s.setReg i v).regs = s.regs.set i.val v := rfl
@[simp] theorem State.setReg_pc (i : RegIdx) (v : Byte) : (s.setReg i v).pc = s.pc := rfl
@[simp] theorem State.setReg_flags (i : RegIdx) (v : Byte) : (s.setReg i v).flags = s.flags := rfl
@[simp] theorem State.setReg_engine (i : RegIdx) (v : Byte) : (s.setReg i v).engine = s.engine := rfl
@[simp] theorem State.setReg_fault (i : RegIdx) (v : Byte) : (s.setReg i v).fault = s.fault := rfl
@[simp] theorem State.setReg_out (i : RegIdx) (v : Byte) : (s.setReg i v).out = s.out := rfl
@[simp] theorem State.setReg_extAlu (i : RegIdx) (v : Byte) : (s.setReg i v).extAlu = s.extAlu := rfl

@[simp] theorem State.setSp_mem (v : Byte) : (s.setSp v).mem = s.mem := rfl
@[simp] theorem State.setSp_regs (v : Byte) : (s.setSp v).regs = s.regs.set 7 v := rfl
@[simp] theorem State.setSp_pc (v : Byte) : (s.setSp v).pc = s.pc := rfl
@[simp] theorem State.setSp_flags (v : Byte) : (s.setSp v).flags = s.flags := rfl
@[simp] theorem State.setSp_engine (v : Byte) : (s.setSp v).engine = s.engine := rfl
@[simp] theorem State.setSp_fault (v : Byte) : (s.setSp v).fault = s.fault := rfl
@[simp] theorem State.setSp_out (v : Byte) : (s.setSp v).out = s.out := rfl
@[simp] theorem State.setSp_extAlu (v : Byte) : (s.setSp v).extAlu = s.extAlu := rfl

@[simp] theorem State.setPc_mem (t : Addr) : (s.setPc t).mem = s.mem := rfl
@[simp] theorem State.setPc_regs (t : Addr) : (s.setPc t).regs = s.regs := rfl
@[simp] theorem State.setPc_pc (t : Addr) : (s.setPc t).pc = t := rfl
@[simp] theorem State.setPc_flags (t : Addr) : (s.setPc t).flags = s.flags := rfl
@[simp] theorem State.setPc_engine (t : Addr) : (s.setPc t).engine = s.engine := rfl
@[simp] theorem State.setPc_fault (t : Addr) : (s.setPc t).fault = s.fault := rfl
@[simp] theorem State.setPc_out (t : Addr) : (s.setPc t).out = s.out := rfl
@[simp] theorem State.setPc_extAlu (t : Addr) : (s.setPc t).extAlu = s.extAlu := rfl

@[simp] theorem State.writeMem_mem (a : Addr) (v : Byte) : (s.writeMem a v).mem = s.mem.write a v := rfl
@[simp] theorem State.writeMem_regs (a : Addr) (v : Byte) : (s.writeMem a v).regs = s.regs := rfl
@[simp] theorem State.writeMem_pc (a : Addr) (v : Byte) : (s.writeMem a v).pc = s.pc := rfl
@[simp] theorem State.writeMem_flags (a : Addr) (v : Byte) : (s.writeMem a v).flags = s.flags := rfl
@[simp] theorem State.writeMem_engine (a : Addr) (v : Byte) : (s.writeMem a v).engine = s.engine := rfl
@[simp] theorem State.writeMem_fault (a : Addr) (v : Byte) : (s.writeMem a v).fault = s.fault := rfl
@[simp] theorem State.writeMem_out (a : Addr) (v : Byte) : (s.writeMem a v).out = s.out := rfl
@[simp] theorem State.writeMem_extAlu (a : Addr) (v : Byte) : (s.writeMem a v).extAlu = s.extAlu := rfl

@[simp] theorem State.setFlags_mem (f : Flags) : (s.setFlags f).mem = s.mem := rfl
@[simp] theorem State.setFlags_regs (f : Flags) : (s.setFlags f).regs = s.regs := rfl
@[simp] theorem State.setFlags_pc (f : Flags) : (s.setFlags f).pc = s.pc := rfl
@[simp] theorem State.setFlags_flags (f : Flags) : (s.setFlags f).flags = f := rfl
@[simp] theorem State.setFlags_engine (f : Flags) : (s.setFlags f).engine = s.engine := rfl
@[simp] theorem State.setFlags_fault (f : Flags) : (s.setFlags f).fault = s.fault := rfl
@[simp] theorem State.setFlags_out (f : Flags) : (s.setFlags f).out = s.out := rfl
@[simp] theorem State.setFlags_extAlu (f : Flags) : (s.setFlags f).extAlu = s.extAlu := rfl

@[simp] theorem State.emit_mem (v : Byte) : (s.emit v).mem = s.mem := rfl
@[simp] theorem State.emit_regs (v : Byte) : (s.emit v).regs = s.regs := rfl
@[simp] theorem State.emit_pc (v : Byte) : (s.emit v).pc = s.pc := rfl
@[simp] theorem State.emit_flags (v : Byte) : (s.emit v).flags = s.flags := rfl
@[simp] theorem State.emit_engine (v : Byte) : (s.emit v).engine = s.engine := rfl
@[simp] theorem State.emit_fault (v : Byte) : (s.emit v).fault = s.fault := rfl
@[simp] theorem State.emit_out (v : Byte) : (s.emit v).out = s.out ++ [v] := rfl
@[simp] theorem State.emit_extAlu (v : Byte) : (s.emit v).extAlu = s.extAlu := rfl

@[simp] theorem State.halt_mem : (s.halt).mem = s.mem := rfl
@[simp] theorem State.halt_regs : (s.halt).regs = s.regs := rfl
@[simp] theorem State.halt_pc : (s.halt).pc = s.pc := rfl
@[simp] theorem State.halt_flags : (s.halt).flags = s.flags := rfl
@[simp] theorem State.halt_engine : (s.halt).engine = Engine.halted := rfl
@[simp] theorem State.halt_fault : (s.halt).fault = s.fault := rfl
@[simp] theorem State.halt_out : (s.halt).out = s.out := rfl
@[simp] theorem State.halt_extAlu : (s.halt).extAlu = s.extAlu := rfl

@[simp] theorem State.enterFault_mem (c : Cause) : (s.enterFault c).mem = s.mem := rfl
@[simp] theorem State.enterFault_regs (c : Cause) : (s.enterFault c).regs = s.regs := rfl
@[simp] theorem State.enterFault_pc (c : Cause) : (s.enterFault c).pc = s.pc := rfl
@[simp] theorem State.enterFault_flags (c : Cause) : (s.enterFault c).flags = s.flags := rfl
@[simp] theorem State.enterFault_engine (c : Cause) : (s.enterFault c).engine = Engine.halted := rfl
@[simp] theorem State.enterFault_fault (c : Cause) : (s.enterFault c).fault = some ⟨c, s.pc, s.readMem s.pc⟩ := rfl
@[simp] theorem State.enterFault_out (c : Cause) : (s.enterFault c).out = s.out := rfl
@[simp] theorem State.enterFault_extAlu (c : Cause) : (s.enterFault c).extAlu = s.extAlu := rfl

/-- Reading a register after a write (10_state.md R14): the written one gives the value, every other keeps its own. -/
theorem State.reg_setReg (i j : RegIdx) (v : Byte) : (s.setReg i v).reg j = if j = i then v else s.reg j := by
  simp only [State.reg, State.setReg, Vector.getElem_set, Fin.ext_iff, eq_comm]

@[simp] theorem State.reg_setReg_same (i : RegIdx) (v : Byte) : (s.setReg i v).reg i = v := by simp [State.reg_setReg]

theorem State.reg_setReg_other {i j : RegIdx} (v : Byte) (h : j ≠ i) : (s.setReg i v).reg j = s.reg j := by
  simp [State.reg_setReg, h]

theorem State.reg_setSp (j : RegIdx) (v : Byte) : (s.setSp v).reg j = if j = 7 then v else s.reg j := s.reg_setReg 7 j v

@[simp] theorem State.sp_setSp (v : Byte) : (s.setSp v).sp = v := s.reg_setReg_same 7 v

@[simp] theorem State.reg_setPc (t : Addr) (j : RegIdx) : (s.setPc t).reg j = s.reg j := rfl
@[simp] theorem State.sp_setPc (t : Addr) : (s.setPc t).sp = s.sp := rfl
@[simp] theorem State.reg_writeMem (a : Addr) (v : Byte) (j : RegIdx) : (s.writeMem a v).reg j = s.reg j := rfl
@[simp] theorem State.sp_writeMem (a : Addr) (v : Byte) : (s.writeMem a v).sp = s.sp := rfl
@[simp] theorem State.reg_setFlags (f : Flags) (j : RegIdx) : (s.setFlags f).reg j = s.reg j := rfl
@[simp] theorem State.sp_setFlags (f : Flags) : (s.setFlags f).sp = s.sp := rfl
@[simp] theorem State.reg_emit (v : Byte) (j : RegIdx) : (s.emit v).reg j = s.reg j := rfl
@[simp] theorem State.sp_emit (v : Byte) : (s.emit v).sp = s.sp := rfl
@[simp] theorem State.reg_halt (j : RegIdx) : (s.halt).reg j = s.reg j := rfl
@[simp] theorem State.sp_halt : (s.halt).sp = s.sp := rfl
@[simp] theorem State.reg_enterFault (c : Cause) (j : RegIdx) : (s.enterFault c).reg j = s.reg j := rfl
@[simp] theorem State.sp_enterFault (c : Cause) : (s.enterFault c).sp = s.sp := rfl
@[simp] theorem State.readMem_setReg (i : RegIdx) (v : Byte) (a' : Addr) : (s.setReg i v).readMem a' = s.readMem a' := rfl
@[simp] theorem State.readMem_setSp (v : Byte) (a' : Addr) : (s.setSp v).readMem a' = s.readMem a' := rfl
@[simp] theorem State.readMem_setPc (t : Addr) (a' : Addr) : (s.setPc t).readMem a' = s.readMem a' := rfl
@[simp] theorem State.readMem_setFlags (f : Flags) (a' : Addr) : (s.setFlags f).readMem a' = s.readMem a' := rfl
@[simp] theorem State.readMem_emit (v : Byte) (a' : Addr) : (s.emit v).readMem a' = s.readMem a' := rfl
@[simp] theorem State.readMem_halt (a' : Addr) : (s.halt).readMem a' = s.readMem a' := rfl
@[simp] theorem State.readMem_enterFault (c : Cause) (a' : Addr) : (s.enterFault c).readMem a' = s.readMem a' := rfl

end Sys2Proof.Machine
end

