-- ==== Sys2Proof/Laws/Operands.lean ====
section
/-! SUPPORT. What the operand checks can do, said once: with a legal operand in range they go on, otherwise they raise; and
from an answer back to the case it came from. -/

namespace Sys2Proof.Machine

variable {s t : State} {a b : Byte}

theorem regIndex_some {r : RegIdx} : regIndex a = some r ↔ a.toNat = r.val := by
  unfold regIndex
  split
  · simp [Fin.ext_iff]
  · have := r.isLt
    simp
    omega

theorem regIndex_none : regIndex a = none ↔ 7 < a.toNat := by
  unfold regIndex
  split <;> simp <;> omega

/-- A legal operand byte names a register (30_encoding.md R47). -/
theorem legal_operand (h : a.toNat ≤ 7) : ∃ r : RegIdx, a.toNat = r.val := ⟨⟨a.toNat, by omega⟩, rfl⟩

theorem State.pcPlus_eq (s : State) (n : Nat) : s.pcPlus n = s.pc + BitVec.ofNat 8 n := by
  apply BitVec.eq_of_toNat_eq
  simp [State.pcPlus, BitVec.toNat_add]

/-- Inside memory the address does not wrap (20_memory.md R32). -/
theorem State.pcPlus_toNat {n : Nat} (h : s.pc.toNat + n ≤ 255) : (s.pcPlus n).toNat = s.pc.toNat + n := by
  simp only [State.pcPlus, BitVec.toNat_ofNat]
  omega

theorem inRange_go {n : Nat} {k : Answer} (h : s.pc.toNat + n ≤ 255) : inRange n s k = k := by
  simp [inRange, Nat.not_lt.2 h]

theorem inRange_raise {n : Nat} {k : Answer} (h : 255 < s.pc.toNat + n) : inRange n s k = raise .pcRangeFault s := by
  simp [inRange, h]

theorem regOperand_go {r : RegIdx} {k : RegIdx → Answer} (h : a.toNat = r.val) : regOperand a s k = k r := by
  simp [regOperand, regIndex_some.2 h]

theorem regOperand_raise {k : RegIdx → Answer} (h : 7 < a.toNat) : regOperand a s k = raise .regIndexFault s := by
  simp [regOperand, regIndex_none.2 h]

theorem guardNext_go {n : Nat} {k : Answer} (h : s.pc.toNat + n ≤ 255) : guardNext n s k = k := by
  simp [guardNext, Nat.not_lt.2 h]

theorem guardNext_raise {n : Nat} {k : Answer} (h : 255 < s.pc.toNat + n) : guardNext n s k = raise .pcRangeFault s := by
  simp [guardNext, h]

theorem raise_next {c : Cause} (h : raise c s = .next t) : t = s.enterFault c := by
  simpa [raise, eq_comm] using h

/-- Everything `inRange` can answer. -/
theorem inRange_cases {n : Nat} {k : Answer} (h : inRange n s k = .next t) :
    (255 < s.pc.toNat + n ∧ t = s.enterFault .pcRangeFault) ∨ (s.pc.toNat + n ≤ 255 ∧ k = .next t) := by
  unfold inRange at h
  split at h
  · exact .inl ⟨by omega, raise_next h⟩
  · exact .inr ⟨by omega, h⟩

/-- Everything `guardNext` can answer. -/
theorem guardNext_cases {n : Nat} {k : Answer} (h : guardNext n s k = .next t) :
    (255 < s.pc.toNat + n ∧ t = s.enterFault .pcRangeFault) ∨ (s.pc.toNat + n ≤ 255 ∧ k = .next t) := by
  unfold guardNext at h
  split at h
  · exact .inl ⟨by omega, raise_next h⟩
  · exact .inr ⟨by omega, h⟩

/-- Everything `regOperand` can answer. -/
theorem regOperand_cases {k : RegIdx → Answer} (h : regOperand a s k = .next t) :
    (7 < a.toNat ∧ t = s.enterFault .regIndexFault) ∨ ∃ r : RegIdx, a.toNat = r.val ∧ k r = .next t := by
  unfold regOperand at h
  split at h
  · exact .inl ⟨regIndex_none.1 (by assumption), raise_next h⟩
  · exact .inr ⟨_, regIndex_some.1 (by assumption), h⟩

/-- Everything `fallThrough` can answer. -/
theorem fallThrough_cases {n : Nat} {f : State → State} (h : fallThrough n s f = .next t) :
    (255 < s.pc.toNat + n ∧ t = s.enterFault .pcRangeFault) ∨
      (s.pc.toNat + n ≤ 255 ∧ t = (f s).setPc (s.pcPlus n)) := by
  rcases guardNext_cases h with h | ⟨hp, h⟩
  · exact .inl h
  · exact .inr ⟨hp, by simpa [eq_comm] using h⟩

/-- Everything a form with one register operand can answer: a fault taken from `s`, or what its continuation answers on a
legal operand. -/
theorem withReg_cases {n : Nat} {k : RegIdx → Answer} (h : withReg n a s k = .next t) :
    (∃ c, c ≠ .aluError ∧ t = s.enterFault c) ∨
      ∃ r : RegIdx, a.toNat = r.val ∧ s.pc.toNat + n ≤ 255 ∧ k r = .next t := by
  rcases inRange_cases h with ⟨-, rfl⟩ | ⟨hp, h⟩
  · exact .inl ⟨_, by decide, rfl⟩
  · rcases regOperand_cases h with ⟨-, rfl⟩ | ⟨r, hr, h⟩
    · exact .inl ⟨_, by decide, rfl⟩
    · exact .inr ⟨r, hr, hp, h⟩

/-- Everything a form with two register operands can answer. -/
theorem withRegs_cases {k : RegIdx → RegIdx → Answer} (h : withRegs a b s k = .next t) :
    (∃ c, c ≠ .aluError ∧ t = s.enterFault c) ∨
      ∃ ra rb : RegIdx, a.toNat = ra.val ∧ b.toNat = rb.val ∧ s.pc.toNat + 2 ≤ 255 ∧ k ra rb = .next t := by
  rcases inRange_cases h with ⟨-, rfl⟩ | ⟨hp, h⟩
  · exact .inl ⟨_, by decide, rfl⟩
  · rcases regOperand_cases h with ⟨-, rfl⟩ | ⟨ra, ha, h⟩
    · exact .inl ⟨_, by decide, rfl⟩
    · rcases regOperand_cases h with ⟨-, rfl⟩ | ⟨rb, hb, h⟩
      · exact .inl ⟨_, by decide, rfl⟩
      · exact .inr ⟨ra, rb, ha, hb, hp, h⟩

end Sys2Proof.Machine
end

