-- ==== Sys2Proof/Laws/Alu.lean ====
section
/-! SUPPORT. What an ALU instruction can do, said once for the nine of them. -/

namespace Sys2Proof.Machine

variable {op : AluOp} {a b : Byte} {s t : State}

/-- The state after the ALU has acted on legal registers, before `pc` moves. -/
def aluEffect (op : AluOp) (ra rb : RegIdx) (s : State) : State :=
  if op = .cmp then s.setFlags (compareFlags (s.reg ra) (s.reg rb) s.flags)
  else s.setReg ra (aluResult op (s.reg ra) (s.reg rb))

theorem aluApply_ok {ra rb : RegIdx} (h : aluSupports s.extAlu op = true) :
    aluApply op ra rb s = .ok (aluEffect op ra rb s) := by
  cases op <;> simp [aluApply, h, aluEffect]

theorem aluApply_error {ra rb : RegIdx} (h : aluSupports s.extAlu op = false) :
    aluApply op ra rb s = .error .aluError := by
  simp [aluApply, h]

/-- Everything an ALU instruction can answer: a fault taken from `s`, AluError only for an operation outside the ALU's set,
or the ALU's effect on legal operands. -/
theorem aluInstr_cases (h : aluInstr op a b s = .next t) :
    (∃ c, c ≠ .aluError ∧ t = s.enterFault c) ∨
      (aluSupports s.extAlu op = false ∧ t = s.enterFault .aluError) ∨
      ∃ ra rb : RegIdx, a.toNat = ra.val ∧ b.toNat = rb.val ∧ s.pc.toNat + 3 ≤ 255 ∧ aluSupports s.extAlu op = true ∧
        t = (aluEffect op ra rb s).setPc (s.pcPlus 3) := by
  rcases withRegs_cases h with h | ⟨ra, rb, ha, hb, -, h⟩
  · exact .inl h
  rcases guardNext_cases h with ⟨-, rfl⟩ | ⟨hp, h⟩
  · exact .inl ⟨_, by decide, rfl⟩
  cases hs : aluSupports s.extAlu op with
  | true =>
    simp only [aluApply_ok hs, Host.Outcome.next.injEq] at h
    exact .inr (.inr ⟨ra, rb, ha, hb, hp, rfl, h.symm⟩)
  | false =>
    simp only [aluApply_error hs] at h
    exact .inr (.inl ⟨rfl, raise_next h⟩)

/-- An ALU instruction with legal operands, in range and inside the ALU's set, completes. -/
theorem aluInstr_go {ra rb : RegIdx} (ha : a.toNat = ra.val) (hb : b.toNat = rb.val) (hp : s.pc.toNat + 3 ≤ 255)
    (hs : aluSupports s.extAlu op = true) :
    aluInstr op a b s = .next ((aluEffect op ra rb s).setPc (s.pcPlus 3)) := by
  simp only [aluInstr, withRegs, inRange_go (show s.pc.toNat + 2 ≤ 255 by omega), regOperand_go ha, regOperand_go hb,
    guardNext_go hp, aluApply_ok hs]

end Sys2Proof.Machine
end

