-- ==== Sys2Proof/Laws/Decode.lean ====
section
/-! SUPPORT. The decoder through its table: what a found row is, and that a word decodes to one instruction. -/

namespace Sys2Proof

/-- No two rows of the opcode table have the same byte: the decoder's choice is no matter of order. -/
theorem opcodeTable_no_overlap : opcodeTable.Pairwise fun r r' => r.opcode ≠ r'.opcode := by
  unfold opcodeTable
  decide

/-- A row the decoder finds is a row of the table with that byte, and is registered. -/
theorem lookupRow_some {ext : Bool} {op : Byte} {row : Row} (h : lookupRow ext op = some row) :
    row ∈ opcodeTable ∧ row.opcode = op ∧ (row.extension = true → ext = true) := by
  have hp := List.find?_some h
  simp only [Bool.and_eq_true, beq_iff_eq, Bool.or_eq_true, Bool.not_eq_true'] at hp
  refine ⟨List.mem_of_find?_eq_some h, hp.1, fun he => ?_⟩
  rcases hp.2 with hx | hx
  · simp [he] at hx
  · exact hx

/-- A row is built so that what it decodes to has the row's byte first and then the operand bytes it took. -/
theorem takeOperands_ok {op : Byte} {f : Form} {rest more : List Byte} {i : Instr} (h : takeOperands op f rest = .ok (i, more)) :
    (f = .f0 i ∧ rest = more) ∨ (∃ mk a, f = .f1 mk ∧ i = mk a ∧ rest = a :: more) ∨
      ∃ mk a b, f = .f2 mk ∧ i = mk a b ∧ rest = a :: b :: more := by
  unfold takeOperands at h
  split at h
  all_goals first
    | (simp only [Except.ok.injEq, Prod.mk.injEq] at h; obtain ⟨rfl, rfl⟩ := h; simp)
    | cases h

/-- What a successful decode says: the first byte is in the table, registered, and its row took the operands. -/
theorem decode_ok {ext : Bool} {bytes more : List Byte} {i : Instr} (h : decode ext bytes = .ok (i, more)) :
    ∃ op rest row, bytes = op :: rest ∧ lookupRow ext op = some row ∧ takeOperands op row.form rest = .ok (i, more) := by
  unfold decode at h
  split at h
  · cases h
  · split at h
    · cases h
    · exact ⟨_, _, _, rfl, by assumption, h⟩

end Sys2Proof
end

