-- ==== Sys2Proof/Laws/Memory.lean ====
section
/-! SUPPORT. The laws of memory: every write keeps the canonical form, a read after a write, and that canonical memories
with equal contents are equal lists. -/

namespace Sys2Proof.Machine

namespace Memory

theorem wfFrom_cons (low j : Nat) (v : Byte) (rest : Memory) :
    wfFrom low ((j, v) :: rest) = true ↔
      low ≤ j ∧ j < Config.memSize ∧ v ≠ Config.memReset ∧ wfFrom (j + 1) rest = true := by
  simp [wfFrom, and_assoc]

/-- A canonical list from a higher key is canonical from a lower one. -/
theorem wfFrom_mono {low low' : Nat} (h : low' ≤ low) {m : Memory} (hm : wfFrom low m = true) : wfFrom low' m = true := by
  cases m with
  | nil => rfl
  | cons c rest =>
    obtain ⟨j, v⟩ := c
    rw [wfFrom_cons] at hm ⊢
    exact ⟨h.trans hm.1, hm.2⟩

/-- A key below a canonical list's bound is not listed. -/
theorem readCell_below {low k : Nat} {m : Memory} (hm : wfFrom low m = true) (hk : k < low) : readCell m k = Config.memReset := by
  induction m generalizing low with
  | nil => rfl
  | cons c rest ih =>
    obtain ⟨j, v⟩ := c
    rw [wfFrom_cons] at hm
    have hj : j ≠ k := by omega
    simp only [readCell, hj, if_false]
    exact ih hm.2.2.2 (by omega)

theorem cons_wfFrom {low k : Nat} {v : Byte} {m : Memory} (hl : low ≤ k) (hk : k < Config.memSize)
    (hm : wfFrom (k + 1) m = true) : wfFrom low (cons k v m) = true := by
  unfold cons
  split
  · exact wfFrom_mono (by omega) hm
  · rename_i hv
    exact (wfFrom_cons ..).2 ⟨hl, hk, hv, hm⟩

/-- Putting a cell in front of a canonical list of higher keys: it reads as written, the others as before. -/
theorem readCell_cons {k : Nat} {v : Byte} {m : Memory} (hm : wfFrom (k + 1) m = true) (k' : Nat) :
    readCell (cons k v m) k' = if k' = k then v else readCell m k' := by
  unfold cons
  split <;> rename_i hv
  · split
    · subst k'
      rw [hv, readCell_below hm (by omega)]
    · rfl
  · by_cases h : k' = k
    · simp [readCell, h]
    · simp [readCell, h, Ne.symm h]

theorem writeCell_wfFrom {low k : Nat} {v : Byte} {m : Memory} (hl : low ≤ k) (hk : k < Config.memSize)
    (hm : wfFrom low m = true) : wfFrom low (writeCell m k v) = true := by
  induction m generalizing low with
  | nil => exact cons_wfFrom hl hk rfl
  | cons c rest ih =>
    obtain ⟨j, w⟩ := c
    have h := (wfFrom_cons ..).1 hm
    simp only [writeCell]
    split
    · exact cons_wfFrom hl hk ((wfFrom_cons ..).2 ⟨by omega, h.2⟩)
    · split
      · subst k
        exact cons_wfFrom hl hk h.2.2.2
      · exact (wfFrom_cons ..).2 ⟨h.1, h.2.1, h.2.2.1, ih (by omega) h.2.2.2⟩

theorem readCell_writeCell {low k : Nat} {v : Byte} {m : Memory} (hm : wfFrom low m = true) (k' : Nat) :
    readCell (writeCell m k v) k' = if k' = k then v else readCell m k' := by
  induction m generalizing low with
  | nil => exact readCell_cons (m := []) rfl k'
  | cons c rest ih =>
    obtain ⟨j, w⟩ := c
    have h := (wfFrom_cons ..).1 hm
    simp only [writeCell]
    split
    · exact readCell_cons ((wfFrom_cons ..).2 ⟨by omega, h.2⟩) k'
    · split
      · subst k
        rw [readCell_cons h.2.2.2]
        split
        · rfl
        · rename_i hk
          simp [readCell, Ne.symm hk]
      · by_cases hj : j = k'
        · have : k' ≠ k := by omega
          simp [readCell, hj, this]
        · simp [readCell, hj, ih h.2.2.2]

/-- Every write keeps the canonical form: an address is always inside the 256 cells. -/
theorem write_wf {m : Memory} (hm : m.wf = true) (a : Addr) (v : Byte) : (m.write a v).wf = true :=
  writeCell_wfFrom (Nat.zero_le _) a.isLt hm

/-- A read after a write (20_memory.md R32). -/
theorem read_write {m : Memory} (hm : m.wf = true) (a b : Addr) (v : Byte) :
    (m.write a v).read b = if b = a then v else m.read b := by
  simp only [read, write, readCell_writeCell hm, BitVec.toNat_inj]

end Memory

end Sys2Proof.Machine
end

