-- ==== Sys2Proof/Laws/Stack.lean ====
section
/-! SUPPORT. What the stack guards and the push can do, said once. -/

namespace Sys2Proof.Machine

variable {s t : State} {v : Byte} {k : Answer}

theorem guardPush_go (h : s.sp.toNat ≠ 0) : guardPush s k = k := by
  have : s.sp ≠ 0 := fun e => h (by rw [e]; rfl)
  simp only [guardPush, this, if_false]

theorem guardPush_raise (h : s.sp.toNat = 0) : guardPush s k = raise .stackFault s := by
  have : s.sp = 0 := BitVec.eq_of_toNat_eq h
  simp only [guardPush, this, if_true]

theorem guardPop_go (h : v.toNat ≠ 255) : guardPop v s k = k := by
  have hv := v.isLt
  have : ¬ v.toNat + 1 > 255 := by omega
  simp only [guardPop, this, if_false]

theorem guardPop_raise (h : v.toNat = 255) : guardPop v s k = raise .stackFault s := by
  simp [guardPop, h]

/-- Everything `guardPush` can answer. -/
theorem guardPush_cases (h : guardPush s k = .next t) :
    (s.sp.toNat = 0 ∧ t = s.enterFault .stackFault) ∨ (s.sp.toNat ≠ 0 ∧ k = .next t) := by
  by_cases hs : s.sp.toNat = 0
  · exact .inl ⟨hs, raise_next (by rwa [guardPush_raise hs] at h)⟩
  · exact .inr ⟨hs, by rwa [guardPush_go hs] at h⟩

/-- Everything `guardPop` can answer. -/
theorem guardPop_cases (h : guardPop v s k = .next t) :
    (v.toNat = 255 ∧ t = s.enterFault .stackFault) ∨ (v.toNat ≠ 255 ∧ k = .next t) := by
  by_cases hs : v.toNat = 255
  · exact .inl ⟨hs, raise_next (by rwa [guardPop_raise hs] at h)⟩
  · exact .inr ⟨hs, by rwa [guardPop_go hs] at h⟩

/-- The decrement and the increment do not wrap where the guards let them through (42_stack.md R78). -/
theorem pushAddr_toNat (h : s.sp.toNat ≠ 0) : s.pushAddr.toNat = s.sp.toNat - 1 := by
  have := s.sp.isLt
  have h1 : (1 : Byte).toNat = 1 := rfl
  simp only [State.pushAddr, BitVec.toNat_sub, h1]
  omega

/-- A push in full: register 7 is decremented and the value, computed after the decrement, is stored there; nothing else
changes. -/
theorem pushByte_eq (value : State → Byte) (s : State) :
    s.pushByte value = (s.setSp s.pushAddr).writeMem s.pushAddr (value (s.setSp s.pushAddr)) := by
  simp only [State.pushByte, State.pushAddr, State.sp_setSp]

/-- A write to memory is read back, and every other address reads as before. -/
theorem State.readMem_writeMem (hm : s.mem.wf = true) (a b : Addr) :
    (s.writeMem a v).readMem b = if b = a then v else s.readMem b := Memory.read_write hm a b v

end Sys2Proof.Machine
end

