-- ==== Sys2Proof/Laws/Exec.lean ====
section
/-! SUPPORT. What an instruction can do, said once for all nineteen: a fault taken from the state it started in, a halt, or one
of the few shapes of effect. The invariants, the frames over all instructions and the step laws cite this. -/

namespace Sys2Proof.Machine

variable {i : Instr} {a b : Byte} {s t : State}

/-- The shapes of effect of an instruction that completes, each with the new `pc`. -/
inductive Effect (i : Instr) (s : State) : State → Prop
  /-- LDI and the ALU instructions that write `x[regA]`. -/
  | setReg (r : RegIdx) (v : Byte) (p : Addr) : Effect i s ((s.setReg r v).setPc p)
  /-- CMP. -/
  | compare (a b : Byte) (ra rb : RegIdx) (p : Addr) (h : i = .cmp a b) :
      Effect i s ((s.setFlags (compareFlags (s.reg ra) (s.reg rb) s.flags)).setPc p)
  /-- PRN. -/
  | emit (a : Byte) (r : RegIdx) (p : Addr) (h : i = .prn a) (ha : a.toNat = r.val) : Effect i s ((s.emit (s.reg r)).setPc p)
  /-- JMP, JEQ, JNE. -/
  | jump (p : Addr) : Effect i s (s.setPc p)
  /-- PUSH, CALL. -/
  | push (v : Byte) (p : Addr) (h : s.sp.toNat ≠ 0) : Effect i s (((s.setSp s.pushAddr).writeMem s.pushAddr v).setPc p)
  /-- POP. -/
  | pop (r : RegIdx) (v w : Byte) (p : Addr) : Effect i s (((s.setReg r v).setSp w).setPc p)
  /-- RET. -/
  | ret (w : Byte) (p : Addr) : Effect i s ((s.setPc p).setSp w)

/-- Everything an instruction can answer as a next state. AluError is taken only by an instruction that `EXT_ALU` does not
register. -/
inductive ExecCase (i : Instr) (s t : State) : Prop
  | fault (c : Cause) (hc : c = .aluError → i.registered s.extAlu = false) (ht : t = s.enterFault c)
  | halt (hi : i = .hlt) (ht : t = s.halt)
  | done (h : Effect i s t)

theorem fault_not_alu (h : ∃ c, c ≠ Cause.aluError ∧ t = s.enterFault c) : ExecCase i s t := by
  obtain ⟨c, hc, ht⟩ := h
  exact .fault c (fun e => absurd e hc) ht

theorem aluInstr_execCase {op : AluOp} (h : aluInstr op a b s = .next t) (hop : op ≠ .cmp)
    (hreg : aluSupports s.extAlu op = false → i.registered s.extAlu = false) : ExecCase i s t := by
  rcases aluInstr_cases h with h | ⟨hs, ht⟩ | ⟨ra, rb, -, -, -, -, ht⟩
  · exact fault_not_alu h
  · exact .fault _ (fun _ => hreg hs) ht
  · simp only [aluEffect, hop, if_false] at ht
    exact ht ▸ .done (.setReg ..)

theorem branchIf_execCase {c : Bool} {r : RegIdx} (h : branchIf c r s = .next t) : ExecCase i s t := by
  unfold branchIf at h
  split at h
  · simp only [Host.Outcome.next.injEq] at h
    exact h ▸ .done (.jump _)
  · rcases fallThrough_cases h with ⟨-, ht⟩ | ⟨-, ht⟩
    · exact .fault _ (by simp) ht
    · exact ht ▸ .done (.jump _)

theorem execPush_execCase (h : execPush a s = .next t) : ExecCase i s t := by
  rcases withReg_cases h with h | ⟨r, -, -, h⟩
  · exact fault_not_alu h
  rcases guardPush_cases h with ⟨-, ht⟩ | ⟨hs, h⟩
  · exact .fault _ (by simp) ht
  rcases fallThrough_cases h with ⟨-, ht⟩ | ⟨-, ht⟩
  · exact .fault _ (by simp) ht
  · rw [pushByte_eq] at ht
    exact ht ▸ .done (.push _ _ hs)

theorem execCall_execCase (h : execCall a s = .next t) : ExecCase i s t := by
  rcases withReg_cases h with h | ⟨r, -, -, h⟩
  · exact fault_not_alu h
  rcases guardPush_cases h with ⟨-, ht⟩ | ⟨hs, h⟩
  · exact .fault _ (by simp) ht
  rcases guardNext_cases h with ⟨-, ht⟩ | ⟨-, h⟩
  · exact .fault _ (by simp) ht
  · simp only [pushByte_eq, Host.Outcome.next.injEq] at h
    exact h ▸ .done (.push _ _ hs)

theorem execPop_execCase (h : execPop a s = .next t) : ExecCase i s t := by
  rcases withReg_cases h with h | ⟨r, -, -, h⟩
  · exact fault_not_alu h
  rcases guardPop_cases h with ⟨-, ht⟩ | ⟨-, h⟩
  · exact .fault _ (by simp) ht
  rcases fallThrough_cases h with ⟨-, ht⟩ | ⟨-, ht⟩
  · exact .fault _ (by simp) ht
  · exact ht ▸ .done (.pop ..)

theorem execRet_execCase (h : execRet s = .next t) : ExecCase i s t := by
  rcases guardPop_cases h with ⟨-, ht⟩ | ⟨-, h⟩
  · exact .fault _ (by simp) ht
  · simp only [Host.Outcome.next.injEq] at h
    exact h ▸ .done (.ret ..)

theorem execLdi_execCase (h : execLdi a b s = .next t) : ExecCase i s t := by
  rcases withReg_cases h with h | ⟨r, -, -, h⟩
  · exact fault_not_alu h
  rcases fallThrough_cases h with ⟨-, ht⟩ | ⟨-, ht⟩
  · exact .fault _ (by simp) ht
  · exact ht ▸ .done (.setReg ..)

/-- Everything PRN can answer: a fault, or the value of its register emitted. -/
theorem execPrn_cases (h : execPrn a s = .next t) : (∃ c, c ≠ Cause.aluError ∧ t = s.enterFault c) ∨
    ∃ r : RegIdx, a.toNat = r.val ∧ t = (s.emit (s.reg r)).setPc (s.pcPlus 2) := by
  rcases withReg_cases h with h | ⟨r, ha, -, h⟩
  · exact .inl h
  rcases fallThrough_cases h with ⟨-, ht⟩ | ⟨-, ht⟩
  · exact .inl ⟨_, by simp, ht⟩
  · exact .inr ⟨r, ha, ht⟩

theorem execPrn_execCase (h : execPrn a s = .next t) : ExecCase (.prn a) s t := by
  rcases execPrn_cases h with h | ⟨r, ha, ht⟩
  · exact fault_not_alu h
  · exact ht ▸ .done (.emit a r _ rfl ha)

theorem execCmp_execCase (h : execCmp a b s = .next t) : ExecCase (.cmp a b) s t := by
  rcases aluInstr_cases h with h | ⟨hs, -⟩ | ⟨ra, rb, -, -, -, -, ht⟩
  · exact fault_not_alu h
  · cases hs
  · exact ht ▸ .done (.compare a b ra rb _ rfl)

/-- Everything any instruction can answer as a next state. -/
theorem exec_cases (h : exec i s = .next t) : ExecCase i s t := by
  cases i with
  | hlt =>
    simp only [exec, execHlt, Host.Outcome.next.injEq] at h
    exact .halt rfl h.symm
  | ldi a b => exact execLdi_execCase h
  | prn a => exact execPrn_execCase h
  | mul a b => exact aluInstr_execCase (op := .mul) h (by decide) (by simp [aluSupports])
  | push a => exact execPush_execCase h
  | pop a => exact execPop_execCase h
  | call a => exact execCall_execCase h
  | ret => exact execRet_execCase h
  | add a b => exact aluInstr_execCase (op := .add) h (by decide) (by simp [aluSupports])
  | cmp a b => exact execCmp_execCase h
  | jeq a =>
    rcases withReg_cases h with h | ⟨r, -, -, h⟩
    · exact fault_not_alu h
    · exact branchIf_execCase h
  | jmp a =>
    rcases withReg_cases h with h | ⟨r, -, -, h⟩
    · exact fault_not_alu h
    · exact branchIf_execCase h
  | jne a =>
    rcases withReg_cases h with h | ⟨r, -, -, h⟩
    · exact fault_not_alu h
    · exact branchIf_execCase h
  | sub a b => exact aluInstr_execCase (op := .sub) h (by decide) (by simp [aluSupports, Instr.registered, Instr.isExtension])
  | and a b => exact aluInstr_execCase (op := .and) h (by decide) (by simp [aluSupports, Instr.registered, Instr.isExtension])
  | or a b => exact aluInstr_execCase (op := .or) h (by decide) (by simp [aluSupports, Instr.registered, Instr.isExtension])
  | xor a b => exact aluInstr_execCase (op := .xor) h (by decide) (by simp [aluSupports, Instr.registered, Instr.isExtension])
  | shl a b => exact aluInstr_execCase (op := .shl) h (by decide) (by simp [aluSupports, Instr.registered, Instr.isExtension])
  | shr a b => exact aluInstr_execCase (op := .shr) h (by decide) (by simp [aluSupports, Instr.registered, Instr.isExtension])

end Sys2Proof.Machine
end

