-- ==== Sys2Proof/Laws/Loader.lean ====
section
/-! SUPPORT. The loader's readings, one law each: where a text is cut, what a line of each kind gives, what a token denotes, and
what a list of tokens gives. -/

namespace Sys2Proof.Machine

theorem splitLines_ne_nil (text : List Char) : splitLines text ≠ [] := by
  cases text with
  | nil => simp [splitLines]
  | cons c rest =>
    unfold splitLines
    split
    · simp
    · split <;> simp

/-- The first line ends at the first line end. -/
theorem splitLines_cons_line {line : List Char} (h : '\n' ∉ line) (rest : List Char) :
    splitLines (line ++ '\n' :: rest) = line :: splitLines rest := by
  induction line with
  | nil =>
    cases hs : splitLines rest with
    | nil => exact absurd hs (splitLines_ne_nil rest)
    | cons l more => simp [splitLines, hs]
  | cons c line ih =>
    simp only [List.mem_cons, not_or] at h
    simp [splitLines, ih h.2, Ne.symm h.1]

theorem splitLines_of_line {line : List Char} (h : '\n' ∉ line) : splitLines line = [line] := by
  induction line with
  | nil => rfl
  | cons c line ih =>
    simp only [List.mem_cons, not_or] at h
    simp [splitLines, ih h.2, Ne.symm h.1]

/-- Cutting is the inverse of joining lines that hold no line end. -/
theorem splitLines_intercalate {lines : List (List Char)} (hne : lines ≠ []) (h : ∀ line ∈ lines, '\n' ∉ line) :
    splitLines (List.intercalate ['\n'] lines) = lines := by
  induction lines with
  | nil => exact absurd rfl hne
  | cons line rest ih =>
    cases rest with
    | nil => simpa using splitLines_of_line (h line (by simp))
    | cons next more =>
      rw [List.intercalate_cons_cons, List.append_assoc, List.singleton_append, splitLines_cons_line (h line (by simp)),
        ih (by simp) fun l hl => h l (by simp [hl])]

/-- A line gives what it means: nothing for a blank or a comment, else its first token. -/
theorem lineToken_of_means {line : List Char} {meaning : Option (List Char)} (h : LineMeans line meaning) :
    lineToken line = meaning := by
  cases h with
  | blank _ h => simp [lineToken, List.dropWhile_eq_nil_iff.mpr h]
  | comment margin text h =>
    rw [lineToken, List.dropWhile_append_of_pos h, List.dropWhile_cons_of_neg (by decide)]
    simp
  | token margin word text h hword hsolid hhash htext =>
    cases word with
    | nil => exact absurd rfl hword
    | cons c word =>
      have hw : ∀ d ∈ c :: word, (!isBlank d) = true := fun d hd => by simp [hsolid d hd]
      have ht : text.takeWhile (fun d => !isBlank d) = [] := by
        cases text with
        | nil => rfl
        | cons d text => simp [htext d rfl]
      have hc : c ≠ '#' := fun e => hhash (by simp [e])
      rw [lineToken, List.dropWhile_append_of_pos h, List.cons_append, List.dropWhile_cons_of_neg (by simp [hsolid c])]
      simp only [if_neg hc, ← List.cons_append]
      rw [List.takeWhile_append_of_pos hw, ht, List.append_nil]

/-- The tokens of a file are those its lines say. -/
theorem tokens_of_file {lines : List (List Char × Option (List Char))} {text : List Char} (h : FileOfLines lines text) :
    (splitLines text).filterMap lineToken = lines.filterMap Prod.snd := by
  obtain ⟨hne, hlines, rfl⟩ := h
  rw [splitLines_intercalate (by simpa using hne) (by simpa using fun a b hab => (hlines (a, b) hab).1), List.filterMap_map]
  exact List.filterMap_congr fun q hq => lineToken_of_means (hlines q hq).2

/-- The loader's value of a literal, digit by digit from the left, is the sum of its places. -/
theorem foldl_digits_eq (token : List Char) (n : Nat) :
    token.foldl (fun n c => 2 * n + if c = '1' then 1 else 0) n = n * 2 ^ token.length + placeValue token := by
  induction token generalizing n with
  | nil => simp [placeValue]
  | cons c rest ih =>
    rw [List.foldl_cons, ih, placeValue, List.length_cons, Nat.pow_succ]
    split <;> ring

theorem binaryValue_of_literal {token : List Char} (h : BinaryLiteral token) : binaryValue token = some (placeValue token) := by
  have hall : (token.all fun c => c = '0' || c = '1') = true := by simpa using h.2
  rw [binaryValue, if_neg (by simp [h.1, hall]), foldl_digits_eq]
  simp

theorem binaryValue_of_not_literal {token : List Char} (h : ¬ BinaryLiteral token) : binaryValue token = none := by
  rw [binaryValue, if_pos]
  by_cases hn : token = []
  · simp [hn]
  · simp only [hn, decide_false, Bool.false_or, Bool.not_eq_true', ← Bool.not_eq_true]
    exact fun hall => h ⟨hn, by simpa using hall⟩

/-- A token gives a byte exactly when it denotes one, and then the byte of its value. -/
theorem tokenByte_ok_iff {token : List Char} {v : Byte} :
    tokenByte token = .ok v ↔ DenotesByte token ∧ v = BitVec.ofNat 8 (placeValue token) := by
  by_cases h : BinaryLiteral token
  · by_cases hv : placeValue token > 255
    · simp [tokenByte, binaryValue_of_literal h, DenotesByte, h, hv, show ¬ placeValue token ≤ 255 by omega]
    · simp [tokenByte, binaryValue_of_literal h, DenotesByte, h, hv, show placeValue token ≤ 255 by omega, eq_comm]
  · simp [tokenByte, binaryValue_of_not_literal h, DenotesByte, h]

/-- Tokens that all denote bytes give those bytes in order. -/
theorem tokensBytes_of_denote {tokens : List (List Char)} (h : ∀ token ∈ tokens, DenotesByte token) :
    tokensBytes tokens = .ok (tokens.map fun token => BitVec.ofNat 8 (placeValue token)) := by
  induction tokens with
  | nil => rfl
  | cons token rest ih =>
    rw [tokensBytes, tokenByte_ok_iff.mpr ⟨h token (by simp), rfl⟩]
    simp [ih fun u hu => h u (by simp [hu])]

/-- The first token that gives no byte decides the error. -/
theorem tokensBytes_of_first_error {good more : List (List Char)} {bad : List Char} {e : LoadError}
    (h : ∀ token ∈ good, DenotesByte token) (hbad : tokenByte bad = .error e) :
    tokensBytes (good ++ bad :: more) = .error e := by
  induction good with
  | nil => simp [tokensBytes, hbad]
  | cons token rest ih =>
    rw [List.cons_append, tokensBytes, tokenByte_ok_iff.mpr ⟨h token (by simp), rfl⟩]
    simp [ih fun u hu => h u (by simp [hu])]

/-- A file whose tokens give bytes is those bytes, if they fit. -/
theorem programOfFile_of_bytes {lines : List (List Char × Option (List Char))} {text : List Char} {bytes : List Byte}
    (h : FileOfLines lines text) (hb : tokensBytes (lines.filterMap Prod.snd) = .ok bytes) :
    programOfFile (some text) = fitsMemory bytes := by
  simp only [programOfFile, programOfLines, tokens_of_file h, hb]

/-- A file with a token that gives no byte is the error of its tokens. -/
theorem programOfFile_of_error {lines : List (List Char × Option (List Char))} {text : List Char} {e : LoadError}
    (h : FileOfLines lines text) (he : tokensBytes (lines.filterMap Prod.snd) = .error e) :
    programOfFile (some text) = .error e := by
  simp only [programOfFile, programOfLines, tokens_of_file h, he]

end Sys2Proof.Machine
end

