-- ==== Sys2Proof/Laws/PerInstr.lean ====
section
/-! SUPPORT. Statements about every instruction as syntax, one lemma per constructor. -/

namespace Sys2Proof.Laws.EncodingShape

/-- An instruction's encoding has one byte more than it has operands, and its first byte is a row of the opcode table that is
registered exactly as the instruction is (30_encoding.md R46, R49, R55). -/
def Statement (i : Instr) : Prop :=
  (encode i).length = i.operandCount + 1 ∧
    ∃ row, (encode i).head?.bind (lookupRow true) = some row ∧ row.extension = i.isExtension

theorem hlt : Statement (.hlt) := ⟨rfl, _, rfl, rfl⟩
theorem ldi (a b : Byte) : Statement (.ldi a b) := ⟨rfl, _, rfl, rfl⟩
theorem prn (a : Byte) : Statement (.prn a) := ⟨rfl, _, rfl, rfl⟩
theorem mul (a b : Byte) : Statement (.mul a b) := ⟨rfl, _, rfl, rfl⟩
theorem push (a : Byte) : Statement (.push a) := ⟨rfl, _, rfl, rfl⟩
theorem pop (a : Byte) : Statement (.pop a) := ⟨rfl, _, rfl, rfl⟩
theorem call (a : Byte) : Statement (.call a) := ⟨rfl, _, rfl, rfl⟩
theorem ret : Statement (.ret) := ⟨rfl, _, rfl, rfl⟩
theorem add (a b : Byte) : Statement (.add a b) := ⟨rfl, _, rfl, rfl⟩
theorem cmp (a b : Byte) : Statement (.cmp a b) := ⟨rfl, _, rfl, rfl⟩
theorem jeq (a : Byte) : Statement (.jeq a) := ⟨rfl, _, rfl, rfl⟩
theorem jmp (a : Byte) : Statement (.jmp a) := ⟨rfl, _, rfl, rfl⟩
theorem jne (a : Byte) : Statement (.jne a) := ⟨rfl, _, rfl, rfl⟩
theorem sub (a b : Byte) : Statement (.sub a b) := ⟨rfl, _, rfl, rfl⟩
theorem and (a b : Byte) : Statement (.and a b) := ⟨rfl, _, rfl, rfl⟩
theorem or (a b : Byte) : Statement (.or a b) := ⟨rfl, _, rfl, rfl⟩
theorem xor (a b : Byte) : Statement (.xor a b) := ⟨rfl, _, rfl, rfl⟩
theorem shl (a b : Byte) : Statement (.shl a b) := ⟨rfl, _, rfl, rfl⟩
theorem shr (a b : Byte) : Statement (.shr a b) := ⟨rfl, _, rfl, rfl⟩

end Sys2Proof.Laws.EncodingShape
end

