-- ==== Sys2Proof/Laws/Step.lean ====
section
/-! SUPPORT. What a step can do, said once. -/

namespace Sys2Proof.Machine

variable {s t : State}

/-- A step that answers a next state was Running, and either executed the decoded instruction or took the fault of a
rejected fetch. -/
theorem step_cases (h : step s = .next t) :
    s.engine = .running ∧
      ((∃ i, fetchDecode s = .ok i ∧ exec i s = .next t) ∨
        ∃ r, fetchDecode s = .error r ∧ t = s.enterFault (rejectCause r)) := by
  unfold step at h
  split at h
  · cases h
  · cases h
  · refine ⟨by assumption, ?_⟩
    split at h
    · exact .inl ⟨_, by assumption, h⟩
    · exact .inr ⟨_, by assumption, raise_next h⟩

/-- The fetch always has the opcode byte first (40_dispatcher.md R61). -/
theorem fetchBytes_head (s : State) : (fetchBytes s).head? = some (s.readMem s.pc) := by
  have h : s.pc.toNat ≤ 255 := by have := s.pc.isLt; omega
  simp [fetchBytes, State.pcPlus, h]

end Sys2Proof.Machine
end

