-- ==== Sys2Proof/Laws/Run.lean ====
section
/-! SUPPORT. Runs of many steps: the induction packaged once, and that the host's own `Core.run` is the model's `run`. -/

namespace Sys2Proof.Machine

@[simp] theorem run_zero (s : State) : run 0 s = .next s := rfl

/-- A run of one more step that answers a next state is a step and then a run. -/
theorem run_succ_cases {k : Nat} {s t : State} (h : run (k + 1) s = .next t) : ∃ u, step s = .next u ∧ run k u = .next t := by
  unfold run at h
  split at h
  · exact ⟨_, by assumption, h⟩
  · cases h
  · cases h

theorem run_succ_of_step {k : Nat} {s t : State} (h : step s = .next t) : run (k + 1) s = run k t := by
  simp only [run, h]

/-- What every step keeps, every run keeps. -/
theorem run_invariant {P : State → Prop} (hstep : ∀ s t, P s → step s = .next t → P t) (k : Nat) (s t : State) (hs : P s)
    (h : run k s = .next t) : P t := by
  induction k generalizing s with
  | zero =>
    simp only [run_zero, Host.Outcome.next.injEq] at h
    exact h ▸ hs
  | succ k ih =>
    obtain ⟨u, hu, h⟩ := run_succ_cases h
    exact ih u (hstep s u hs hu) h

/-- What every tick keeps, every run with inputs keeps. -/
theorem ticks_invariant {P : State → Prop} (htick : ∀ p s t, P s → tick p s = .next t → P t) (ps : List Pins) (s t : State)
    (hs : P s) (h : ticks ps s = .next t) : P t := by
  induction ps generalizing s with
  | nil =>
    simp only [ticks, Host.Outcome.next.injEq] at h
    exact h ▸ hs
  | cons p rest ih =>
    unfold ticks at h
    split at h
    · exact ih _ (htick p s _ hs (by assumption)) h
    · cases h
    · cases h

theorem host_run_succ (M : Host.Core) (k : Nat) (s : M.State) :
    M.run (k + 1) s = match M.step s with
      | .next t => M.run k t
      | .fault f => .fault f
      | .refused r => .refused r := by
  cases h : M.step s <;> simp only [Host.Core.run, h]

theorem host_run_next {M : Host.Core} {k : Nat} {s t : M.State} (h : M.step s = .next t) : M.run (k + 1) s = M.run k t := by
  rw [host_run_succ, h]

theorem host_run_fault {M : Host.Core} {k : Nat} {s : M.State} {f : M.Fault} (h : M.step s = .fault f) :
    M.run (k + 1) s = .fault f := by
  rw [host_run_succ, h]

theorem host_run_refused {M : Host.Core} {k : Nat} {s : M.State} {r : M.Refusal} (h : M.step s = .refused r) :
    M.run (k + 1) s = .refused r := by
  rw [host_run_succ, h]

/-- The host's run of the core is the model's run. -/
theorem core_run_eq (k : Nat) (s : State) : Host.Core.run Sys2Proof.core k s = run k s := by
  induction k generalizing s with
  | zero => rfl
  | succ k ih =>
    unfold run
    cases h : step s with
    | next t => exact (host_run_next (M := Sys2Proof.core) h).trans (ih t)
    | fault f => exact host_run_fault (M := Sys2Proof.core) h
    | refused r => exact host_run_refused (M := Sys2Proof.core) h

end Sys2Proof.Machine
end

