-- ==== Sys2Proof/Tests/Slice0.lean ====
section
/-! SUPPORT. The model's own tests. Expected results are those of spec/95_test_vectors.md (the vector's name stands in the
comment) or of the worked example of the rule named. Below them, one witness theorem for each statement that has hypotheses. -/

namespace Sys2Proof.Machine.Tests

/-- The reset state, Running, with bytes placed at `p` and `pc` there (the convention of 95_test_vectors.md). -/
def placed (p : Addr) (bytes : List Byte) (regs : List (RegIdx × Byte)) : State :=
  regs.foldl (fun s r => s.setReg r.1 r.2) { storeBytes p.toNat bytes State.reset with pc := p, engine := .running }

/-- What a step leaves in one view of the state; `none` where it answers no next state. -/
def after {α : Type} (s : State) (view : State → α) : Option α :=
  match step s with
  | .next t => some (view t)
  | .fault _ => none
  | .refused _ => none

/-- The fault record as (cause, fpc, fop), with the engine. -/
def faultView (t : State) : Engine × Option (Cause × Addr × Byte) := (t.engine, t.fault.map fun r => (r.cause, r.fpc, r.fop))

/-! ### WellFormed: an ill-formed term for each check -/

theorem test_wf_refuses_first_register : (Instr.prn 8).wellFormed = false := by decide
theorem test_wf_refuses_second_register : (Instr.add 0 9).wellFormed = false := by decide
theorem test_wf_refuses_ldi_register : (Instr.ldi 8 0).wellFormed = false := by decide
theorem test_wf_takes_any_literal : (Instr.ldi 7 0xFF).wellFormed = true := by decide
theorem test_registered_refuses_extension : (Instr.sub 0 1).registered false = false := by decide

/-! ### Decode: every constructor by its bytes, written out from 30_encoding.md R49 and R55 -/

theorem test_decode_hlt : decodeTableWord 8 0b00000001 = some (.hlt) := by decide
theorem test_decode_ldi : decodeTableWord 24 0b000001010000001110000010 = some (.ldi 3 5) := by decide
theorem test_decode_prn : decodeTableWord 16 0b0000001101000111 = some (.prn 3) := by decide
theorem test_decode_mul : decodeTableWord 24 0b000001010000001110100010 = some (.mul 3 5) := by decide
theorem test_decode_push : decodeTableWord 16 0b0000001101000101 = some (.push 3) := by decide
theorem test_decode_pop : decodeTableWord 16 0b0000001101000110 = some (.pop 3) := by decide
theorem test_decode_call : decodeTableWord 16 0b0000001101010000 = some (.call 3) := by decide
theorem test_decode_ret : decodeTableWord 8 0b00010001 = some (.ret) := by decide
theorem test_decode_add : decodeTableWord 24 0b000001010000001110100000 = some (.add 3 5) := by decide
theorem test_decode_cmp : decodeTableWord 24 0b000001010000001110100111 = some (.cmp 3 5) := by decide
theorem test_decode_jeq : decodeTableWord 16 0b0000001101010101 = some (.jeq 3) := by decide
theorem test_decode_jmp : decodeTableWord 16 0b0000001101010100 = some (.jmp 3) := by decide
theorem test_decode_jne : decodeTableWord 16 0b0000001101010110 = some (.jne 3) := by decide
theorem test_decode_sub : decodeTableWord 24 0b000001010000001110100001 = some (.sub 3 5) := by decide
theorem test_decode_and : decodeTableWord 24 0b000001010000001110101000 = some (.and 3 5) := by decide
theorem test_decode_or : decodeTableWord 24 0b000001010000001110101010 = some (.or 3 5) := by decide
theorem test_decode_xor : decodeTableWord 24 0b000001010000001110101011 = some (.xor 3 5) := by decide
theorem test_decode_shl : decodeTableWord 24 0b000001010000001110101100 = some (.shl 3 5) := by decide
theorem test_decode_shr : decodeTableWord 24 0b000001010000001110101101 = some (.shr 3 5) := by decide
theorem test_decode_short_word : decodeTableWord 8 0b10000010 = some (.ldi 0 0) := by decide
theorem test_decode_illegal_zero : decodeTableWord 8 0 = none := by decide
theorem test_decode_extension_needs_parameter : lookupRow false 0xA1 = none := rfl

/-! ### The step, by instruction -/

-- V-LDI-2, V-LDI-6
theorem test_ldi_sp : after (placed 0 [0x82, 7, 0x40] []) (fun t => (t.reg 7, t.pc)) = some (0x40, 3) := by decide
theorem test_ldi_top : after (placed 253 [0x82, 0, 8] []) (fun t => (t.reg 0, faultView t)) =
    some (0, .halted, some (.pcRangeFault, 253, 0x82)) := by decide
-- V-PRN-2, V-PRN-4
theorem test_prn : after (placed 3 [0x47, 1] [(1, 0xFF)]) (fun t => (t.out, t.pc)) = some ([0xFF], 5) := by decide
theorem test_prn_index : after (placed 3 [0x47, 0xC8] []) (fun t => (t.out, faultView t)) =
    some ([], .halted, some (.regIndexFault, 3, 0x47)) := by decide
-- V-HLT-2
theorem test_hlt_at_255 : after (placed 255 [0x01] []) (fun t => (t.pc, faultView t)) = some (255, .halted, none) := by decide
-- V-ADD-3, V-ADD-9
theorem test_add_wraps : after (placed 0 [0xA0, 0, 1] [(0, 0xFF), (1, 0xFF)]) (fun t => (t.reg 0, t.pc)) =
    some (0xFE, 3) := by decide
theorem test_add_index : after (placed 0 [0xA0, 0, 9] []) faultView = some (.halted, some (.regIndexFault, 0, 0xA0)) := by decide
-- V-MUL-3, V-MUL-5
theorem test_mul_wraps : after (placed 0 [0xA2, 0, 1] [(0, 0xFF), (1, 0xFF)]) (fun t => t.reg 0) = some 0x01 := by decide
theorem test_mul_square : after (placed 0 [0xA2, 3, 3] [(3, 13)]) (fun t => t.reg 3) = some 0xA9 := by decide
-- V-CMP-3, V-CMP-5
theorem test_cmp_unsigned : after (placed 0 [0xA7, 0, 1] [(0, 0x80), (1, 1)]) (fun t => t.flags) =
    some ⟨false, false, true⟩ := by decide
theorem test_cmp_sticky : after ((placed 0 [0xA7, 0, 1] [(0, 9), (1, 5)]).setFlags ⟨true, true, false⟩) (fun t => t.flags) =
    some ⟨true, true, true⟩ := by decide
-- V-PUSH-4, V-PUSH-5
theorem test_push_sp : after (placed 0x10 [0x45, 7] [(7, 0x80)]) (fun t => (t.sp, t.readMem 0x7F)) = some (0x7F, 0x7F) := by decide
theorem test_push_over_operand : after (placed 0x20 [0x45, 3] [(3, 0x99), (7, 0x22)]) (fun t => (t.sp, t.readMem 0x21, t.pc)) =
    some (0x21, 0x99, 0x22) := by decide
-- V-POP-3, V-POP-2
theorem test_pop_sp : after ((placed 0 [0x46, 7] [(7, 0xFF)]).writeMem 0xFF 9) (fun t => (t.sp, t.pc)) = some (0x0A, 2) := by decide
theorem test_pop_underflow : after ((placed 0 [0x46, 2] [(7, 0xFF)]).writeMem 0xFF 9) (fun t => (t.reg 2, faultView t)) =
    some (0, .halted, some (.stackFault, 0, 0x46)) := by decide
-- V-CALL-2, V-CALL-6
theorem test_call_sp : after (placed 6 [0x50, 7] [(7, 0x80)]) (fun t => (t.sp, t.readMem 0x7F, t.pc)) =
    some (0x7F, 0x08, 0x7F) := by decide
theorem test_call_priority : after (placed 254 [0x50, 1] [(1, 9), (7, 0)]) faultView =
    some (.halted, some (.stackFault, 254, 0x50)) := by decide
-- V-RET-1, V-RET-3
theorem test_ret : after ((placed 14 [0x11] [(7, 0xF3)]).writeMem 0xF3 8) (fun t => (t.pc, t.sp)) = some (8, 0xF4) := by decide
theorem test_ret_at_255 : after ((placed 255 [0x11] [(7, 0xF3)]).writeMem 0xF3 8) (fun t => t.pc) = some 8 := by decide
-- V-JMP-2, V-JMP-3
theorem test_jmp_at_254 : after (placed 254 [0x54, 3] [(3, 12)]) (fun t => t.pc) = some 12 := by decide
theorem test_jmp_at_255 : after (placed 255 [0x54] []) faultView = some (.halted, some (.pcRangeFault, 255, 0x54)) := by decide
-- V-JEQ-2, V-JEQ-5
theorem test_jeq_reads_e_only : after ((placed 18 [0x55, 2] [(2, 40)]).setFlags ⟨false, true, true⟩) (fun t => t.pc) =
    some 20 := by decide
theorem test_jeq_index_untaken : after (placed 18 [0x55, 9] []) faultView = some (.halted, some (.regIndexFault, 18, 0x55)) := by decide
-- V-JNE-3, V-JNE-4
theorem test_jne_fallthrough_254 : after ((placed 254 [0x56, 3] [(3, 12)]).setFlags ⟨true, false, false⟩) faultView =
    some (.halted, some (.pcRangeFault, 254, 0x56)) := by decide
theorem test_jne_taken_254 : after (placed 254 [0x56, 3] [(3, 12)]) (fun t => t.pc) = some 12 := by decide
-- V-SUB-2, V-AND-1, V-OR-1, V-XOR-1, V-SHL-4, V-SHL-6, V-SHR-1, V-SHR-5
theorem test_sub_wraps : after { placed 0 [0xA1, 0, 1] [(0, 3), (1, 5)] with extAlu := true } (fun t => t.reg 0) =
    some 0xFE := by decide
theorem test_and : after { placed 0 [0xA8, 0, 1] [(0, 0xCC), (1, 0xAA)] with extAlu := true } (fun t => t.reg 0) =
    some 0x88 := by decide
theorem test_or : after { placed 0 [0xAA, 0, 1] [(0, 0xCC), (1, 0xAA)] with extAlu := true } (fun t => t.reg 0) =
    some 0xEE := by decide
theorem test_xor : after { placed 0 [0xAB, 0, 1] [(0, 0xCC), (1, 0xAA)] with extAlu := true } (fun t => t.reg 0) =
    some 0x66 := by decide
theorem test_shl_255 : after { placed 0 [0xAC, 0, 1] [(0, 0xFF), (1, 255)] with extAlu := true } (fun t => t.reg 0) =
    some 0 := by decide
theorem test_shl_self : after { placed 0 [0xAC, 2, 2] [(2, 3)] with extAlu := true } (fun t => t.reg 2) = some 0x18 := by decide
theorem test_shr_logical : after { placed 0 [0xAD, 0, 1] [(0, 0x81), (1, 1)] with extAlu := true } (fun t => t.reg 0) =
    some 0x40 := by decide
theorem test_shr_top : after { placed 253 [0xAD, 0, 1] [(0, 0xFF), (1, 1)] with extAlu := true } faultView =
    some (.halted, some (.pcRangeFault, 253, 0xAD)) := by decide
-- V-DSP-2, V-DSP-3
theorem test_dispatch_error_at_255 : after (placed 255 [0xFF] []) faultView =
    some (.halted, some (.dispatchError, 255, 0xFF)) := by decide
theorem test_dispatch_error_without_extension : after (placed 0 [0xA1, 0, 1] [(0, 5), (1, 3)]) faultView =
    some (.halted, some (.dispatchError, 0, 0xA1)) := by decide

/-! ### withFetchWord, ports, loader -/

theorem test_withFetchWord_runs_ldi : after (State.reset.withFetchWord 8 0x82) (fun t => (t.pc, t.engine)) =
    some (3, .running) := by decide
theorem test_withFetchWord_runs_shr : after (State.reset.withFetchWord 24 0x0100AD) (fun t => (t.pc, t.engine)) =
    some (3, .running) := by decide
/-- 30_encoding.md R56: text after the first token is ignored, a short token is its value, comments and blank lines are
skipped. -/
theorem test_loader : programOfFile (some "10000010 # LDI R0,8\n\n  # note\n 101\r\n".toList) = .ok [0x82, 5] := by rfl
/-- S10 of 95_test_vectors.md. -/
theorem test_loader_bad_token : programOfFile (some "1000001x".toList) = .error (.badToken "1000001x".toList) := by rfl
theorem test_loader_literal_above_255 : tokenByte "100000000".toList = .error (.literalTooLarge "100000000".toList) := by rfl
/-- 44_data_movement.md R92: 0xFF prints as 255 on a line of its own. -/
theorem test_render : renderByte 0xFF = "255\n" := by rfl
/-- 10_state.md R30: `st_fl` is L, G, E from bit 2 down. -/
theorem test_flags_packed : (Flags.packed ⟨true, false, false⟩, Flags.packed ⟨false, true, false⟩) = (0b001, 0b100) := by decide

/-! ### Witnesses: for each statement with hypotheses, a state and operands that meet them -/

/-- The reset state with `pc` at `p`. -/
def atPc (p : Addr) : State := State.reset.setPc p

theorem witness_OpcodeTableRows :
    (0x00 : Byte) ∉ [0x01, 0x82, 0x47, 0xA2, 0x45, 0x46, 0x50, 0x11, 0xA0, 0xA7, 0x55, 0x54, 0x56] ∧
    (0xFF : Byte) ∉ [0x01, 0x82, 0x47, 0xA2, 0x45, 0x46, 0x50, 0x11, 0xA0, 0xA7, 0x55, 0x54, 0x56] := by decide
theorem witness_ExtensionRowsNeedParameter : (0xA1 : Byte) ∈ ([0xA1, 0xA8, 0xAA, 0xAB, 0xAC, 0xAD] : List Byte) := by decide
theorem witness_StepRunsDecodedInstruction :
    (placed 0 [0x82, 7, 0x40] []).engine = .running ∧
    ∃ rest, decode false (fetchBytes (placed 0 [0x82, 7, 0x40] [])) = .ok (.ldi 7 0x40, rest) := ⟨rfl, _, rfl⟩
/-- The last place an LDI fits, and HLT at 255. -/
theorem witness_StepRunsBytesInMemory :
    ((placed 253 [0x82, 7, 0x40] []).pc.toNat + (Instr.ldi 7 0x40).operandCount ≤ 255 ∧
      [0, 1, 2].map (fun k => (placed 253 [0x82, 7, 0x40] []).readMem (BitVec.ofNat 8 (253 + k))) = encode (.ldi 7 0x40)) ∧
    ((placed 255 [0x01] []).pc.toNat + Instr.hlt.operandCount ≤ 255 ∧ [(placed 255 [0x01] []).readMem 255] = encode .hlt) := by
  decide
theorem witness_UnknownOpcodeIsDispatchError :
    (placed 255 [0xFF] []).engine = .running ∧
    (placed 255 [0xFF] []).readMem 255 ∉ [0x01, 0x82, 0x47, 0xA2, 0x45, 0x46, 0x50, 0x11, 0xA0, 0xA7, 0x55, 0x54, 0x56] ∧
    (placed 255 [0xFF] []).readMem 255 ∉ [0xA1, 0xA8, 0xAA, 0xAB, 0xAC, 0xAD] ∧
    (placed 0 [0xA1] []).extAlu = false := by decide
theorem witness_OperandsPastMemoryEndFault :
    (encode (.ldi 0 0)).head? = some ((placed 254 [0x82] []).readMem 254) ∧
    255 < (placed 254 [0x82] []).pc.toNat + (Instr.ldi 0 0).operandCount ∧
    (encode (.jmp 0)).head? = some ((placed 255 [0x54] []).readMem 255) ∧
    255 < (placed 255 [0x54] []).pc.toNat + (Instr.jmp 0).operandCount := by decide
theorem witness_NoStepUnlessRunning : State.reset.engine = .idle ∧ State.reset.halt.engine = .halted := by decide
theorem witness_StepCompletesHaltsOrFaults : ∃ t, step (placed 255 [0x01] []) = .next t := ⟨_, rfl⟩
/-- Register 7 at 252; 254; 253 with a legal and with an illegal operand. -/
theorem witness_LdiLoadsLiteral :
    ((7 : Byte).toNat = (7 : RegIdx).val ∧ (atPc 252).pc.toNat ≤ 252) ∧ 254 ≤ (atPc 254).pc.toNat ∧
    ((7 : Byte).toNat ≤ 7 ∧ (atPc 253).pc.toNat = 253) ∧ (7 < (8 : Byte).toNat ∧ (atPc 253).pc.toNat ≤ 253) := by decide
theorem witness_PrnEmitsRegister :
    ((7 : Byte).toNat = (7 : RegIdx).val ∧ (atPc 253).pc.toNat ≤ 253) ∧ (atPc 255).pc.toNat = 255 ∧
    ((7 : Byte).toNat ≤ 7 ∧ (atPc 254).pc.toNat = 254) ∧ (7 < (8 : Byte).toNat ∧ (atPc 254).pc.toNat ≤ 254) := by decide
theorem witness_HltHaltsCleanly : (atPc 255).fault = none ∧ (⟨false, true, true, 0, 1⟩ : Pins).rst = false ∧
    ∃ t, exec .hlt (atPc 255) = .next t := ⟨rfl, rfl, _, rfl⟩
theorem witness_JmpJumpsToRegister :
    ((7 : Byte).toNat = (7 : RegIdx).val ∧ (atPc 254).pc.toNat ≤ 254) ∧ (atPc 255).pc.toNat = 255 ∧
    (7 < (8 : Byte).toNat ∧ (atPc 254).pc.toNat ≤ 254) := by decide
/-- Both conditional branches: taken at 254, falling through at 253 and at 254, at 255, and with an illegal operand. -/
theorem witness_JeqJumpsWhenEqual :
    ((7 : Byte).toNat = (7 : RegIdx).val ∧ ((atPc 254).setFlags ⟨true, false, false⟩).flags.e = true ∧
      ((atPc 254).setFlags ⟨true, false, false⟩).pc.toNat ≤ 254) ∧
    ((atPc 253).flags.e = false ∧ (atPc 253).pc.toNat ≤ 253) ∧ ((atPc 254).flags.e = false ∧ (atPc 254).pc.toNat = 254) ∧
    (atPc 255).pc.toNat = 255 ∧ (7 < (8 : Byte).toNat ∧ (atPc 254).pc.toNat ≤ 254) := by decide
theorem witness_JneJumpsWhenNotEqual :
    ((7 : Byte).toNat = (7 : RegIdx).val ∧ (atPc 254).flags.e = false ∧ (atPc 254).pc.toNat ≤ 254) ∧
    (((atPc 253).setFlags ⟨true, false, false⟩).flags.e = true ∧ ((atPc 253).setFlags ⟨true, false, false⟩).pc.toNat ≤ 253) ∧
    (((atPc 254).setFlags ⟨true, false, false⟩).flags.e = true ∧ ((atPc 254).setFlags ⟨true, false, false⟩).pc.toNat = 254) ∧
    (atPc 255).pc.toNat = 255 ∧ (7 < (8 : Byte).toNat ∧ (atPc 254).pc.toNat ≤ 254) := by decide
/-- ADD, MUL at the last place they complete, both operands register 7. -/
theorem witness_AddWrapsModulo256 : (7 : Byte).toNat = (7 : RegIdx).val ∧ (atPc 252).pc.toNat ≤ 252 := by decide
theorem witness_MulWrapsModulo256 : (7 : Byte).toNat = (7 : RegIdx).val ∧ (atPc 252).pc.toNat ≤ 252 := by decide
/-- Equal (one register twice), greater and less by one pair of registers each way. -/
theorem witness_CmpSetsOneFlag :
    (0 : Byte).toNat = (0 : RegIdx).val ∧ (7 : Byte).toNat = (7 : RegIdx).val ∧ (atPc 252).pc.toNat ≤ 252 ∧
    ((atPc 252).reg 0).toNat = ((atPc 252).reg 0).toNat ∧ ((atPc 252).reg 0).toNat < ((atPc 252).reg 7).toNat := by decide
theorem witness_SubWrapsModulo256 :
    (7 : Byte).toNat = (7 : RegIdx).val ∧ (atPc 252).pc.toNat ≤ 252 ∧ { atPc 252 with extAlu := true }.extAlu = true := by decide
theorem witness_BitwiseResultsPerBit :
    (7 : Byte).toNat = (7 : RegIdx).val ∧ (atPc 252).pc.toNat ≤ 252 ∧ { atPc 252 with extAlu := true }.extAlu = true := by decide
/-- A count of exactly 8. -/
theorem witness_ShiftsFillWithZeros :
    (1 : Byte).toNat = (1 : RegIdx).val ∧ { (atPc 252).setReg 1 8 with extAlu := true }.pc.toNat ≤ 252 ∧
    8 ≤ ({ (atPc 252).setReg 1 8 with extAlu := true }.reg 1).toNat := by decide
theorem witness_RetPopsIntoPc :
    (((atPc 255).setReg 7 254).reg 7).toNat ≤ 254 ∧ (((atPc 255).setReg 7 255).reg 7).toNat = 255 := by decide
theorem witness_PushStoresBelowTop :
    (7 : Byte).toNat = (7 : RegIdx).val ∧ (atPc 253).pc.toNat ≤ 253 ∧ (((atPc 253).setReg 7 1).reg 7).toNat ≠ 0 := by decide
theorem witness_PopLoadsTop :
    (0 : RegIdx) ≠ 7 ∧ (atPc 253).pc.toNat ≤ 253 ∧ (((atPc 253).setReg 7 254).reg 7).toNat ≠ 255 ∧
    (7 : Byte).toNat = (7 : RegIdx).val ∧ ((atPc 253).readMem ((atPc 253).reg 7)).toNat ≠ 255 := by decide
theorem witness_CallPushesReturnAddress :
    (7 : Byte).toNat = (7 : RegIdx).val ∧ (atPc 253).pc.toNat ≤ 253 ∧ (((atPc 253).setReg 7 1).reg 7).toNat ≠ 0 := by decide
/-- PUSH R0 from address 0, and the state it leaves taken as the state POP starts from. -/
theorem witness_PopUndoesPush :
    (0 : RegIdx) ≠ 7 ∧ (placed 0 [0x45, 0] [(0, 6)]).mem.wf = true ∧ (placed 0 [0x45, 0] [(0, 6)]).engine = .running ∧
    ∃ t, exec (.push 0) (placed 0 [0x45, 0] [(0, 6)]) = .next t ∧ t.engine = .running ∧ t.pc.toNat ≤ 253 :=
  ⟨by decide, by decide, by decide, _, rfl, by decide, by decide⟩
theorem witness_RetUndoesCall :
    (placed 6 [0x50, 1] [(1, 9)]).mem.wf = true ∧ (placed 6 [0x50, 1] [(1, 9)]).engine = .running ∧
    ∃ t, exec (.call 1) (placed 6 [0x50, 1] [(1, 9)]) = .next t ∧ t.engine = .running :=
  ⟨by decide, by decide, _, rfl, by decide⟩
/-- One boundary case for each clause: LDI at 254; ADD R0,R8 at 253; CALL at 254 with SP 0; PRN at 254; LDI at 252. -/
theorem witness_FaultPriorityAndCompletion :
    255 < (atPc 254).pc.toNat + (Instr.ldi 0 0).operandCount ∧
    ((atPc 253).pc.toNat + (Instr.add 0 8).operandCount ≤ 255 ∧ (Instr.add 0 8).wellFormed = false) ∧
    ((Instr.call 0).wellFormed = true ∧ stackFaults (.call 0) ((atPc 254).setReg 7 0) = true) ∧
    (stackFaults (.prn 0) (atPc 254) = false ∧ successorFaults (.prn 0) (atPc 254) = true) ∧
    (stackFaults (.ldi 0 0) (atPc 252) = false ∧ successorFaults (.ldi 0 0) (atPc 252) = false ∧
      (Instr.ldi 0 0).registered (atPc 252).extAlu = true) := by decide
theorem witness_StackFaultAtMemoryEnds :
    (atPc 254).pc.toNat ≤ 254 ∧ ((atPc 254).setReg 7 0).reg 7 = 0x00 ∧ ((atPc 254).setReg 7 0xFF).reg 7 = 0xFF ∧
    ((atPc 254).writeMem 0xF4 0xFF).readMem (((atPc 254).writeMem 0xF4 0xFF).reg 7) = 0xFF := by decide
theorem witness_FaultEntryIsPrecise : ∃ t, raise .stackFault (atPc 254) = .next t := ⟨_, rfl⟩
/-- A step that records a fault; and an extension instruction with `EXT_ALU` false. -/
theorem witness_AluErrorUnreachable :
    (∃ t, step (placed 255 [0xFF] []) = .next t ∧ t.fault ≠ (placed 255 [0xFF] []).fault) ∧
    ((7 : Byte).toNat = (7 : RegIdx).val ∧ (atPc 252).pc.toNat ≤ 252 ∧ (atPc 252).extAlu = false) :=
  ⟨⟨_, rfl, by decide⟩, by decide⟩
theorem witness_RegisterWriteFrame : ∃ t, exec (.mul 7 7) (atPc 252) = .next t ∧ t.engine = .idle := ⟨_, rfl, by decide⟩
theorem witness_NoRegisterWriteFrame : ∃ t, exec (.cmp 0 7) (atPc 252) = .next t ∧ t.flags.l = true := ⟨_, rfl, by decide⟩
theorem witness_StackStoreFrame :
    (atPc 253).mem.wf = true ∧ ∃ t, exec (.push 7) (atPc 253) = .next t ∧ t.readMem 0xF3 = 0xF3 := ⟨by decide, _, rfl, by decide⟩
theorem witness_StackLoadFrame : ∃ t, exec (.pop 0) (atPc 253) = .next t ∧ t.sp = 0xF5 := ⟨_, rfl, by decide⟩
/-- A compare that completes and one that a fault stops; runs of one step that start with `E` set and end at 254 (the last JEQ)
and at 253 (the last JNE that completes). -/
theorem witness_FlagsAreSticky :
    (∃ t, exec (.cmp 0 0) (placed 0 [0xA7, 0, 0] []) = .next t ∧ (placed 0 [0xA7, 0, 0] []).engine = .running ∧
      t.engine = .running) ∧
    (∃ t, exec (.cmp 0 8) (placed 0 [0xA7, 0, 8] []) = .next t ∧ t.engine ≠ .running) ∧
    (∃ t, run 1 ((placed 252 [0x47, 0] []).setFlags ⟨true, false, false⟩) = .next t ∧ t.pc.toNat = 254) ∧
    (∃ t, run 1 ((placed 251 [0x47, 0] []).setFlags ⟨true, false, false⟩) = .next t ∧ t.pc.toNat = 253) ∧
    (∃ t, exec (.ldi 0 0) (atPc 0) = .next t) :=
  ⟨⟨_, rfl, by decide, by decide⟩, ⟨_, rfl, by decide⟩, ⟨_, rfl, by decide⟩, ⟨_, rfl, by decide⟩, _, rfl⟩
/-- A PRN that completes, and one that its register operand stops. -/
theorem witness_OnlyPrnEmits :
    (∃ t, step (placed 3 [0x47, 1] [(1, 0xFF)]) = .next t ∧ t.out ≠ []) ∧
    (∃ t, step (placed 3 [0x47, 8] []) = .next t ∧ fetchDecode (placed 3 [0x47, 8] []) = .ok (.prn 8) ∧ t.out = []) :=
  ⟨⟨_, rfl, by decide⟩, _, rfl, rfl, by decide⟩
theorem witness_LessGreaterAndOutputUnreadable :
    readable (placed 3 [0x47, 1] []) = readable ((placed 3 [0x47, 1] []).setFlags ⟨false, true, true⟩) ∧
    ∃ t, run 1 (placed 3 [0x47, 1] []) = .next t := ⟨by decide, _, rfl⟩
theorem witness_SelfJumpRunsForever :
    (placed 254 [0x54, 3] [(3, 254)]).engine = .running ∧ (placed 254 [0x54, 3] [(3, 254)]).pc.toNat ≤ 254 ∧
    (3 : Byte).toNat = (3 : RegIdx).val ∧ (placed 254 [0x54, 3] [(3, 254)]).readMem 254 = 0x54 ∧
    (placed 254 [0x54, 3] [(3, 254)]).readMem (254 + 1) = 3 ∧ (placed 254 [0x54, 3] [(3, 254)]).reg 3 = 254 := by decide
theorem witness_MemoryPrimitives : (placed 0 [0x82, 7, 0x40] []).mem.wf = true := by decide
theorem witness_CanonicalMemoryIsContent : Memory.wf [(0, 0x82), (255, 0x01)] = true := by decide
theorem witness_ResetGivesStatedValues :
    (⟨true, true, true, 0, 0⟩ : Pins).rst = true ∧ State.reset.extAlu = false := by decide
/-- `rst`; Running; Halted; Idle with a load and a run. -/
theorem witness_InputPortsAct :
    (⟨true, true, true, 0, 0⟩ : Pins).rst = true ∧ (⟨false, true, true, 0, 1⟩ : Pins).rst = false ∧
    (placed 0 [0x01] []).engine = .running ∧ State.reset.halt.engine = .halted ∧ State.reset.engine = .idle := by decide
theorem witness_StatusOutputViews :
    State.reset.fault = none ∧ ∃ r, (State.reset.enterFault .stackFault).fault = some r := ⟨rfl, _, rfl⟩
theorem witness_LaunchStateOfProgram : (List.replicate 256 (0x01 : Byte)).length ≤ 256 :=
  Nat.le_of_eq List.length_replicate
/-- A file of three lines, a comment, a blank line and a literal followed by text (30_encoding.md R56: `101` loads 0x05). -/
theorem witness_LoaderAcceptsExactly :
    FileOfLines [([' ', '#', '1'], none), ([], none), (['\t', '1', '0', '1', ' ', '2'], some ['1', '0', '1'])]
      [' ', '#', '1', '\n', '\n', '\t', '1', '0', '1', ' ', '2'] ∧
    DenotesByte ['1', '0', '1'] ∧ placeValue ['1', '0', '1'] = 5 := by
  refine ⟨⟨by simp, ?_, rfl⟩, ⟨⟨by simp, by simp⟩, by simp [placeValue]⟩, by simp [placeValue]⟩
  simp only [List.forall_mem_cons]
  refine ⟨⟨by simp, .comment [' '] ['1'] (by simp [isBlank])⟩, ⟨by simp, .blank [] (by simp)⟩,
    ⟨by simp, .token ['\t'] ['1', '0', '1'] [' ', '2'] (by simp [isBlank]) (by simp) (by simp [isBlank]) (by simp)
      (by simp [isBlank])⟩, by simp⟩
/-- A token that is no literal, and the least literal above 255. -/
theorem witness_LoaderReportsErrors :
    FileOfLines [(['2'], some ['2'])] ['2'] ∧ ¬ BinaryLiteral ['2'] ∧
    BinaryLiteral ['1', '0', '0', '0', '0', '0', '0', '0', '0'] ∧
    placeValue ['1', '0', '0', '0', '0', '0', '0', '0', '0'] = 256 ∧ programOfFile none = .error .badFilePath := by
  refine ⟨⟨by simp, ?_, rfl⟩, fun h => absurd (h.2 '2' (by simp)) (by simp), ⟨by simp, by simp⟩, by simp [placeValue], rfl⟩
  simp only [List.forall_mem_cons]
  exact ⟨⟨by simp, .token [] ['2'] [] (by simp) (by simp) (by simp [isBlank]) (by simp) (by simp)⟩, by simp⟩
theorem witness_StepKeepsInvariant : (placed 0 [0x45, 0] [(0, 6)]).Inv ∧ ∃ t, step (placed 0 [0x45, 0] [(0, 6)]) = .next t := by
  refine ⟨⟨by decide, ?_, ?_, ?_, ?_⟩, _, rfl⟩
  · intro r h; cases h
  · intro r h; cases h
  · intro r h; cases h
  · intro h; cases h
/-- A load, a start and a step from an Idle state that meets the invariant. -/
theorem witness_TicksKeepInvariant : (atPc 0).Inv ∧
    ∃ t, ticks [⟨false, false, true, 0, 0x01⟩, ⟨false, true, false, 0, 0⟩, ⟨false, false, false, 0, 0⟩] (atPc 0) = .next t ∧
      t.engine = .halted ∧ t.fault = none := by
  refine ⟨⟨by decide, ?_, ?_, ?_, ?_⟩, _, rfl, by decide, by decide⟩
  · intro r h; cases h
  · intro r h; cases h
  · intro r h; cases h
  · intro h; cases h
theorem witness_ExtAluNeverChanges :
    (∃ t, ticks [⟨true, false, false, 0, 0⟩] { atPc 0 with extAlu := true } = .next t ∧ t.extAlu = true) ∧
    ∃ i, fetchDecode (placed 0 [0x82, 7, 0x40] []) = .ok i := ⟨⟨_, rfl, by decide⟩, _, rfl⟩

end Sys2Proof.Machine.Tests
end

section
/-! PROOFS of the statements about memory (20_memory.md). -/

namespace Sys2Proof.Machine

/-- Settles O40: the read after a write is the law of memory `State.readMem_writeMem`, which needs the canonical form; that
nothing but memory changes is the definition of `State.writeMem`, a record update of that one component. -/
theorem memoryPrimitives : Obligations.MemoryPrimitives := by
  unfold Obligations.MemoryPrimitives
  intro s a b v hm
  constructor
  · exact State.readMem_writeMem hm a b
  · rfl

end Sys2Proof.Machine
end

section
/-! PROOFS of the statements about the stack (42_stack.md). -/

namespace Sys2Proof

/-- The row of RET in the opcode table (30_encoding.md R49) is registered whether or not `EXT_ALU` is. -/
theorem lookupRow_ret (ext : Bool) : lookupRow ext 0x11 = some ⟨0x11, .f0 .ret, false⟩ := by
  cases ext <;> rfl

theorem decode_ret (ext : Bool) (rest : List Byte) : decode ext (0x11 :: rest) = .ok (.ret, rest) := by
  simp only [decode, lookupRow_ret, takeOperands]

end Sys2Proof

namespace Sys2Proof.Machine

variable {s : State}

theorem exec_ret (s : State) : exec .ret s = execRet s := rfl

/-- RET past its underflow guard completes at every `pc`: it has no operand byte and no successor to check. -/
theorem exec_ret_go (h : s.sp.toNat ≠ 255) :
    exec .ret s = .next ((s.setPc (s.readMem s.sp)).setSp (s.sp + 1)) := by
  rw [exec_ret, execRet, guardPop_go h]

theorem exec_ret_raise (h : s.sp.toNat = 255) : exec .ret s = raise .stackFault s := by
  rw [exec_ret, execRet, guardPop_raise h]

/-- Settles O22: the decoder's row for RET, and the two sides of the underflow guard of 42_stack.md R78, which is RET's only
check. -/
theorem retPopsIntoPc : Obligations.RetPopsIntoPc := by
  unfold Obligations.RetPopsIntoPc
  intro s
  refine ⟨decode_ret, fun hsp => ?_, fun hsp => ?_⟩
  · have hguard : s.sp.toNat ≠ 255 := Nat.ne_of_lt (Nat.lt_succ_of_le hsp)
    exact exec_ret_go hguard
  · exact exec_ret_raise hsp

end Sys2Proof.Machine
end

section
/-! SUPPORT. The instructions of format F1: how the decoder reads them, and the three answers of their operand checks. -/

namespace Sys2Proof

/-- A byte whose row is of format F1 takes the one byte after it as its operand (30_encoding.md R46). -/
theorem decode_of_form_f1 {ext extension : Bool} {op opcode : Byte} {mk : Byte → Instr}
    (hrow : lookupRow ext op = some ⟨opcode, .f1 mk, extension⟩) (a : Byte) (rest : List Byte) :
    decode ext (op :: a :: rest) = .ok (mk a, rest) := by
  simp only [decode, hrow, takeOperands]

end Sys2Proof

namespace Sys2Proof.Machine

variable {s : State} {a : Byte} {n : Nat} {k : RegIdx → Answer}

theorem withReg_go {r : RegIdx} (hp : s.pc.toNat + n ≤ 255) (ha : a.toNat = r.val) : withReg n a s k = k r := by
  rw [withReg, inRange_go hp, regOperand_go ha]

theorem withReg_pcRange (hp : 255 < s.pc.toNat + n) : withReg n a s k = raise .pcRangeFault s := by
  rw [withReg, inRange_raise hp]

theorem withReg_regIndex (hp : s.pc.toNat + n ≤ 255) (ha : 7 < a.toNat) :
    withReg n a s k = raise .regIndexFault s := by
  rw [withReg, inRange_go hp, regOperand_raise ha]

end Sys2Proof.Machine
end

section
/-! PROOFS of the statements about branches (43_branch.md). The three instructions are one conditional jump with three
conditions, so its five answers are proved once. -/

namespace Sys2Proof

/-- The rows of the branches in the opcode table (30_encoding.md R49) are registered whether or not `EXT_ALU` is. -/
theorem lookupRow_jmp (ext : Bool) : lookupRow ext 0x54 = some ⟨0x54, .f1 .jmp, false⟩ := by
  cases ext <;> rfl

theorem lookupRow_jeq (ext : Bool) : lookupRow ext 0x55 = some ⟨0x55, .f1 .jeq, false⟩ := by
  cases ext <;> rfl

theorem lookupRow_jne (ext : Bool) : lookupRow ext 0x56 = some ⟨0x56, .f1 .jne, false⟩ := by
  cases ext <;> rfl

end Sys2Proof

namespace Sys2Proof.Machine

variable {s : State} {a : Byte} {c : Bool}

/-- A branch on the condition `c`, with its operand checks: what JMP, JEQ and JNE have in common (43_branch.md R85). -/
def branchInstr (c : Bool) (a : Byte) (s : State) : Answer := withReg 1 a s fun r => branchIf c r s

theorem exec_jmp (a : Byte) (s : State) : exec (.jmp a) s = branchInstr true a s := rfl

theorem exec_jeq (a : Byte) (s : State) : exec (.jeq a) s = branchInstr s.flags.e a s := rfl

theorem exec_jne (a : Byte) (s : State) : exec (.jne a) s = branchInstr (!s.flags.e) a s := rfl

/-- A taken branch has no successor to check, so it completes at 254 too. -/
theorem branchInstr_taken {r : RegIdx} (ha : a.toNat = r.val) (hc : c = true) (hp : s.pc.toNat ≤ 254) :
    branchInstr c a s = .next (s.setPc (s.reg r)) := by
  rw [branchInstr, withReg_go (Nat.succ_le_succ hp) ha, branchIf, if_pos hc]

/-- A branch that is not taken does nothing but fall through, whichever register it names. -/
theorem branchInstr_untaken (ha : a.toNat ≤ 7) (hc : c = false) (hp : s.pc.toNat ≤ 254) :
    branchInstr c a s = fallThrough 2 s id := by
  obtain ⟨r, hr⟩ := legal_operand ha
  rw [branchInstr, withReg_go (Nat.succ_le_succ hp) hr, branchIf, if_neg (by simp [hc])]

theorem branchInstr_untaken_go (ha : a.toNat ≤ 7) (hc : c = false) (hp : s.pc.toNat ≤ 253) :
    branchInstr c a s = .next (s.setPc (s.pc + 2)) := by
  have hnext : s.pc.toNat + 2 ≤ 255 := by omega
  rw [branchInstr_untaken ha hc (Nat.le_succ_of_le hp), fallThrough, guardNext_go hnext, State.pcPlus_eq]
  rfl

theorem branchInstr_untaken_raise (ha : a.toNat ≤ 7) (hc : c = false) (hp : s.pc.toNat = 254) :
    branchInstr c a s = raise .pcRangeFault s := by
  have hnext : 255 < s.pc.toNat + 2 := by omega
  rw [branchInstr_untaken ha hc (Nat.le_of_eq hp), fallThrough, guardNext_raise hnext]

/-- The operand byte of a branch at 255 lies beyond memory (60_exceptions.md R108 (a)). -/
theorem branchInstr_pcRange (hp : s.pc.toNat = 255) : branchInstr c a s = raise .pcRangeFault s := by
  have hoperand : 255 < s.pc.toNat + 1 := by omega
  exact withReg_pcRange hoperand

/-- The operand is checked whether or not the branch is taken (60_exceptions.md R109). -/
theorem branchInstr_regIndex (ha : 7 < a.toNat) (hp : s.pc.toNat ≤ 254) :
    branchInstr c a s = raise .regIndexFault s :=
  withReg_regIndex (Nat.succ_le_succ hp) ha

/-- Settles O13: the branch whose condition always holds. -/
theorem jmpJumpsToRegister : Obligations.JmpJumpsToRegister := by
  unfold Obligations.JmpJumpsToRegister
  intro a s
  rw [exec_jmp]
  refine ⟨fun ext rest => ?decodes, fun r ha hp => ?taken, fun hp => ?pcRange, fun ha hp => ?regIndex⟩
  case decodes => exact decode_of_form_f1 (lookupRow_jmp ext) a rest
  case taken => exact branchInstr_taken ha rfl hp
  case pcRange => exact branchInstr_pcRange hp
  case regIndex => exact branchInstr_regIndex ha hp

/-- Settles O14: the branch whose condition is the flag `E`. -/
theorem jeqJumpsWhenEqual : Obligations.JeqJumpsWhenEqual := by
  unfold Obligations.JeqJumpsWhenEqual
  intro a s
  rw [exec_jeq]
  refine ⟨fun ext rest => ?decodes, fun r ha he hp => ?taken, fun ha he hp => ?fallsThrough, fun ha he hp => ?noSuccessor,
    fun hp => ?pcRange, fun ha hp => ?regIndex⟩
  case decodes => exact decode_of_form_f1 (lookupRow_jeq ext) a rest
  case taken => exact branchInstr_taken ha he hp
  case fallsThrough => exact branchInstr_untaken_go ha he hp
  case noSuccessor => exact branchInstr_untaken_raise ha he hp
  case pcRange => exact branchInstr_pcRange hp
  case regIndex => exact branchInstr_regIndex ha hp

/-- Settles O15: the branch whose condition is the negation of the flag `E`. -/
theorem jneJumpsWhenNotEqual : Obligations.JneJumpsWhenNotEqual := by
  unfold Obligations.JneJumpsWhenNotEqual
  intro a s
  rw [exec_jne]
  refine ⟨fun ext rest => ?decodes, fun r ha he hp => ?taken, fun ha he hp => ?fallsThrough, fun ha he hp => ?noSuccessor,
    fun hp => ?pcRange, fun ha hp => ?regIndex⟩
  case decodes => exact decode_of_form_f1 (lookupRow_jne ext) a rest
  case taken => exact branchInstr_taken ha (congrArg not he) hp
  case fallsThrough => exact branchInstr_untaken_go ha (congrArg not he) hp
  case noSuccessor => exact branchInstr_untaken_raise ha (congrArg not he) hp
  case pcRange => exact branchInstr_pcRange hp
  case regIndex => exact branchInstr_regIndex ha hp

end Sys2Proof.Machine
end

section
/-! SUPPORT. How the decoder reads formats F0 and F2, and an effect followed by the fall-through, on the two sides of its
guard. -/

namespace Sys2Proof

variable {ext extension : Bool} {op opcode : Byte}

/-- A byte whose row is of format F0 is an instruction by itself (30_encoding.md R46). -/
theorem decode_of_form_f0 {i : Instr} (hrow : lookupRow ext op = some ⟨opcode, .f0 i, extension⟩) (rest : List Byte) :
    decode ext (op :: rest) = .ok (i, rest) := by
  simp only [decode, hrow, takeOperands]

/-- A byte whose row is of format F2 takes the two bytes after it as its operands (30_encoding.md R46). -/
theorem decode_of_form_f2 {mk : Byte → Byte → Instr} (hrow : lookupRow ext op = some ⟨opcode, .f2 mk, extension⟩)
    (a b : Byte) (rest : List Byte) : decode ext (op :: a :: b :: rest) = .ok (mk a b, rest) := by
  simp only [decode, hrow, takeOperands]

end Sys2Proof

namespace Sys2Proof.Machine

variable {s : State} {n : Nat} {effect : State → State}

theorem fallThrough_go (h : s.pc.toNat + n ≤ 255) :
    fallThrough n s effect = .next ((effect s).setPc (s.pc + BitVec.ofNat 8 n)) := by
  rw [fallThrough, guardNext_go h, State.pcPlus_eq]

theorem fallThrough_raise (h : 255 < s.pc.toNat + n) : fallThrough n s effect = raise .pcRangeFault s := by
  rw [fallThrough, guardNext_raise h]

end Sys2Proof.Machine
end

section
/-! PROOFS of the statements about data movement (44_data_movement.md). LDI and PRN are one form, an effect that names one
register and then the fall-through, so its four answers are proved once. -/

namespace Sys2Proof

/-- The rows of LDI, PRN and HLT in the opcode table (30_encoding.md R49) are registered whether or not `EXT_ALU` is. -/
theorem lookupRow_ldi (ext : Bool) : lookupRow ext 0x82 = some ⟨0x82, .f2 .ldi, false⟩ := by
  cases ext <;> rfl

theorem lookupRow_prn (ext : Bool) : lookupRow ext 0x47 = some ⟨0x47, .f1 .prn, false⟩ := by
  cases ext <;> rfl

theorem lookupRow_hlt (ext : Bool) : lookupRow ext 0x01 = some ⟨0x01, .f0 .hlt, false⟩ := by
  cases ext <;> rfl

end Sys2Proof

namespace Sys2Proof.Machine

variable {s t : State} {a : Byte} {n : Nat} {effect : RegIdx → State → State}

/-- An instruction of `n` operand bytes, the first of them a register index, that has an effect and falls through to the byte
after them: what LDI and PRN have in common (44_data_movement.md R91, R92). -/
def regEffectInstr (n : Nat) (effect : RegIdx → State → State) (a : Byte) (s : State) : Answer :=
  withReg n a s fun r => fallThrough (n + 1) s (effect r)

theorem exec_ldi (a b : Byte) (s : State) : exec (.ldi a b) s = regEffectInstr 2 (fun r s => s.setReg r b) a s := rfl

theorem exec_prn (a : Byte) (s : State) : exec (.prn a) s = regEffectInstr 1 (fun r s => s.emit (s.reg r)) a s := rfl

theorem exec_hlt (s : State) : exec .hlt s = .next s.halt := rfl

theorem regEffectInstr_go {r : RegIdx} (ha : a.toNat = r.val) (hp : s.pc.toNat + (n + 1) ≤ 255) :
    regEffectInstr n effect a s = .next ((effect r s).setPc (s.pc + BitVec.ofNat 8 (n + 1))) := by
  have hoperands : s.pc.toNat + n ≤ 255 := by omega
  rw [regEffectInstr, withReg_go hoperands ha, fallThrough_go hp]

/-- The operand bytes end at 255, so the successor is 256 (60_exceptions.md R108 (b)). -/
theorem regEffectInstr_noSuccessor (ha : a.toNat ≤ 7) (hp : s.pc.toNat + n = 255) :
    regEffectInstr n effect a s = raise .pcRangeFault s := by
  obtain ⟨r, hr⟩ := legal_operand ha
  have hnext : 255 < s.pc.toNat + (n + 1) := by omega
  rw [regEffectInstr, withReg_go (Nat.le_of_eq hp) hr, fallThrough_raise hnext]

/-- An operand byte lies beyond memory (60_exceptions.md R108 (a)). -/
theorem regEffectInstr_pcRange (hp : 255 < s.pc.toNat + n) : regEffectInstr n effect a s = raise .pcRangeFault s :=
  withReg_pcRange hp

/-- The operand is checked before the successor (60_exceptions.md R111), so this holds where the operand bytes end at 255
too. -/
theorem regEffectInstr_regIndex (ha : 7 < a.toNat) (hp : s.pc.toNat + n ≤ 255) :
    regEffectInstr n effect a s = raise .regIndexFault s :=
  withReg_regIndex hp ha

/-- Settles O10: the four answers of the form with two operand bytes, the second of which only the effect reads. -/
theorem ldiLoadsLiteral : Obligations.LdiLoadsLiteral := by
  unfold Obligations.LdiLoadsLiteral
  intro a b s
  rw [exec_ldi]
  refine ⟨fun ext rest => ?decodes, fun r ha hp => ?loads, fun hp => ?pcRange, fun ha hp => ?noSuccessor,
    fun ha hp => ?regIndex⟩
  case decodes => exact decode_of_form_f2 (lookupRow_ldi ext) a b rest
  case loads => exact regEffectInstr_go ha (Nat.add_le_add_right hp 3)
  case pcRange => exact regEffectInstr_pcRange (Nat.add_le_add_right hp 2)
  case noSuccessor => exact regEffectInstr_noSuccessor ha (congrArg (· + 2) hp)
  case regIndex => exact regEffectInstr_regIndex ha (Nat.add_le_add_right hp 2)

/-- One value appended to `out` is one pulse that carries it (10_state.md R29). -/
theorem prnPulse_of_out_append {v : Byte} (h : t.out = s.out ++ [v]) : prnPulse s t = some v := by
  simp [prnPulse, h]

/-- One value appended to `out` is its numeral and a line end after the text printed before (10_state.md R21). -/
theorem outputText_of_out_append {v : Byte} (h : t.out = s.out ++ [v]) :
    t.outputText = s.outputText ++ renderByte v := by
  simp [State.outputText, h]

/-- Settles O11: the four answers of the form with one operand byte, and what the host sees of the value appended to `out`; a
fault appends nothing. -/
theorem prnEmitsRegister : Obligations.PrnEmitsRegister := by
  unfold Obligations.PrnEmitsRegister
  intro a s
  rw [exec_prn]
  refine ⟨fun ext rest => ?decodes, fun r ha hp => ?emits, fun hp => ?pcRange, fun ha hp => ?noSuccessor,
    fun ha hp => ?regIndex, s.enterFault_out⟩
  case decodes => exact decode_of_form_f1 (lookupRow_prn ext) a rest
  case emits =>
    exact ⟨_, regEffectInstr_go ha (Nat.add_le_add_right hp 2), rfl, prnPulse_of_out_append rfl,
      outputText_of_out_append rfl⟩
  case pcRange =>
    have hoperand : 255 < s.pc.toNat + 1 := by omega
    exact regEffectInstr_pcRange hoperand
  case noSuccessor => exact regEffectInstr_noSuccessor ha (congrArg (· + 1) hp)
  case regIndex => exact regEffectInstr_regIndex ha (Nat.add_le_add_right hp 1)

/-- Outside Idle the load port is ignored (10_state.md R28). -/
theorem State.onLoad_of_not_idle (h : s.engine ≠ .idle) (a : Addr) (v : Byte) : s.onLoad a v = s := if_neg h

/-- Outside Idle `run` is ignored (10_state.md R27). -/
theorem State.onRun_of_not_idle (h : s.engine ≠ .idle) : s.onRun = s := if_neg h

theorem State.onPins_of_not_idle {p : Pins} (h : s.engine ≠ .idle) (hrst : p.rst = false) : s.onPins p = s := by
  simp [State.onPins, hrst, State.onLoad_of_not_idle h, State.onRun_of_not_idle h]

/-- Halted is terminal for the Dispatcher (40_dispatcher.md R59). -/
theorem step_ne_next_of_halted (h : s.engine = .halted) (t : State) : step s ≠ .next t := by
  intro hstep
  obtain ⟨hrunning, -⟩ := step_cases hstep
  rw [h] at hrunning
  cases hrunning

/-- In Halted neither a step nor any input but `rst` acts (10_state.md R27, R28). -/
theorem tick_of_halted {p : Pins} (h : s.engine = .halted) (hrst : p.rst = false) : tick p s = .next s := by
  have hidle : s.engine ≠ .idle := by simp [h]
  simp [tick, h, hrst, State.onPins_of_not_idle hidle hrst]

theorem State.cleanHalt_halt (h : s.fault = none) : s.halt.cleanHalt = true := by
  simp [State.cleanHalt, h]

/-- Settles O12: HLT has no check, so the only state it can answer is `s.halt`, and the rest is what holds of any Halted
state. -/
theorem hltHaltsCleanly : Obligations.HltHaltsCleanly := by
  unfold Obligations.HltHaltsCleanly
  intro s
  refine ⟨fun ext rest => decode_of_form_f0 (lookupRow_hlt ext) rest, exec_hlt s, fun t ht => ?_⟩
  rw [exec_hlt] at ht
  cases ht
  exact ⟨State.cleanHalt_halt, step_ne_next_of_halted s.halt_engine, fun p => tick_of_halted s.halt_engine⟩

end Sys2Proof.Machine
end

section
/-! SUPPORT. When the decoder finds no row, and the step of a rejected fetch. -/

namespace Sys2Proof

variable {ext extension : Bool} {op : Byte} {row : Row}

/-- The opcodes of the rows that every machine registers, for `false`, and of those that only `EXT_ALU` registers, for `true`
(30_encoding.md R49, R55). -/
def opcodesOf (extension : Bool) : List Byte := (opcodeTable.filter (·.extension == extension)).map Row.opcode

theorem opcodesOf_base :
    opcodesOf false = [0x01, 0x82, 0x47, 0xA2, 0x45, 0x46, 0x50, 0x11, 0xA0, 0xA7, 0x55, 0x54, 0x56] := rfl

theorem opcodesOf_extension : opcodesOf true = [0xA1, 0xA8, 0xAA, 0xAB, 0xAC, 0xAD] := rfl

theorem opcode_mem_opcodesOf (hrow : row ∈ opcodeTable) (h : row.extension = extension) :
    row.opcode ∈ opcodesOf extension :=
  List.mem_map_of_mem (List.mem_filter.mpr ⟨hrow, beq_iff_eq.mpr h⟩)

/-- The dispatch table has no rows but those of the two opcode tables (30_encoding.md R51). -/
theorem lookupRow_eq_none (hbase : op ∉ opcodesOf false) (hext : ext = true → op ∉ opcodesOf true) :
    lookupRow ext op = none := by
  cases hfound : lookupRow ext op with
  | none => rfl
  | some row =>
    obtain ⟨hrow, rfl, hregistered⟩ := lookupRow_some hfound
    cases h : row.extension with
    | false => exact absurd (opcode_mem_opcodesOf hrow h) hbase
    | true => exact absurd (opcode_mem_opcodesOf hrow h) (hext (hregistered h))

/-- A byte without a row is rejected before any operand byte is looked at (40_dispatcher.md R62). -/
theorem decode_of_no_row (hrow : lookupRow ext op = none) (rest : List Byte) :
    decode ext (op :: rest) = .error (.unknownOpcode op) := by
  simp only [decode, hrow]

end Sys2Proof

namespace Sys2Proof.Machine

variable {s : State}

theorem fetchDecode_of_no_row (hrow : lookupRow s.extAlu (s.readMem s.pc) = none) :
    fetchDecode s = .error (.unknownOpcode (s.readMem s.pc)) := by
  obtain ⟨rest, hbytes⟩ := List.head?_eq_some_iff.mp (fetchBytes_head s)
  rw [fetchDecode, hbytes, decode_of_no_row hrow]
  rfl

theorem step_of_rejected_fetch {r : Reject} (hrunning : s.engine = .running) (hfetch : fetchDecode s = .error r) :
    step s = raise (rejectCause r) s := by
  simp only [step, hrunning, hfetch]

end Sys2Proof.Machine
end

section
/-! PROOFS of the statements about faults (60_exceptions.md). -/

namespace Sys2Proof.Machine

/-- Settles O6: the opcode byte is always fetched and has no row, so the decoder rejects it without looking at what follows;
the fault entry is `State.enterFault`, which writes the engine and the record alone. -/
theorem unknownOpcodeIsDispatchError : Obligations.UnknownOpcodeIsDispatchError := by
  unfold Obligations.UnknownOpcodeIsDispatchError
  intro s hrunning hbase hext
  rw [← opcodesOf_base] at hbase
  rw [← opcodesOf_extension] at hext
  have hfetch := fetchDecode_of_no_row (lookupRow_eq_none hbase hext)
  exact ⟨step_of_rejected_fetch hrunning hfetch, rfl⟩

end Sys2Proof.Machine
end

section
/-! SUPPORT. What the load port and the loader leave unchanged, and what memory holds after a load. -/

namespace Sys2Proof.Machine

variable {s : State}

theorem State.onLoad_of_idle (h : s.engine = .idle) (a : Addr) (v : Byte) : s.onLoad a v = s.writeMem a v := if_pos h

theorem State.onRun_of_idle (h : s.engine = .idle) : s.onRun = { s with engine := .running } := if_pos h

theorem State.writeMem_wf (hm : s.mem.wf = true) (a : Addr) (v : Byte) : (s.writeMem a v).mem.wf = true :=
  Memory.write_wf hm a v

theorem loadBytes_cons (h : s.engine = .idle) (k : Nat) (v : Byte) (rest : List Byte) :
    loadBytes k (v :: rest) s = loadBytes (k + 1) rest (s.writeMem (BitVec.ofNat 8 k) v) := by
  rw [loadBytes, State.onLoad_of_idle h]

/-- The loader writes memory and nothing else. -/
theorem loadBytes_eq_with_mem (h : s.engine = .idle) (k : Nat) (bytes : List Byte) :
    loadBytes k bytes s = { s with mem := (loadBytes k bytes s).mem } := by
  induction bytes generalizing k s with
  | nil => rfl
  | cons v rest ih =>
    rw [loadBytes_cons h]
    exact ih (s := s.writeMem (BitVec.ofNat 8 k) v) h (k + 1)

/-- Keys inside memory name different cells: no address wraps (20_memory.md R31). -/
theorem ofNat_addr_ne {j k : Nat} (hj : j < 256) (hk : k < 256) (h : j ≠ k) :
    (BitVec.ofNat 8 j : Addr) ≠ BitVec.ofNat 8 k := by
  rwa [ne_eq, ← BitVec.toNat_inj, BitVec.toNat_ofNat, BitVec.toNat_ofNat, Nat.mod_eq_of_lt hj, Nat.mod_eq_of_lt hk]

/-- The loader writes upward: what lies below its first address stays. -/
theorem readMem_loadBytes_below (h : s.engine = .idle) (hm : s.mem.wf = true) {j k : Nat} {bytes : List Byte}
    (hfit : k + bytes.length ≤ 256) (hj : j < k) :
    (loadBytes k bytes s).readMem (BitVec.ofNat 8 j) = s.readMem (BitVec.ofNat 8 j) := by
  induction bytes generalizing k s with
  | nil => rfl
  | cons v rest ih =>
    rw [List.length_cons] at hfit
    have hfit' : k + 1 + rest.length ≤ 256 := by omega
    have h' := (s.writeMem_engine (BitVec.ofNat 8 k) v).trans h
    have hm' := State.writeMem_wf hm (BitVec.ofNat 8 k) v
    have hne := ofNat_addr_ne (by omega) (by omega) (Nat.ne_of_lt hj)
    rw [loadBytes_cons h, ih h' hm' hfit' (Nat.lt_succ_of_lt hj), State.readMem_writeMem hm, if_neg hne]

/-- From its first address on, the loader puts the bytes in order and keeps what lies beyond the last of them. -/
theorem readMem_loadBytes (h : s.engine = .idle) (hm : s.mem.wf = true) {j k : Nat} {bytes : List Byte}
    (hfit : k + bytes.length ≤ 256) (hkj : k ≤ j) (hj : j < 256) :
    (loadBytes k bytes s).readMem (BitVec.ofNat 8 j) = bytes.getD (j - k) (s.readMem (BitVec.ofNat 8 j)) := by
  induction bytes generalizing k s with
  | nil => rfl
  | cons v rest ih =>
    rw [List.length_cons] at hfit
    have hfit' : k + 1 + rest.length ≤ 256 := by omega
    have h' := (s.writeMem_engine (BitVec.ofNat 8 k) v).trans h
    have hm' := State.writeMem_wf hm (BitVec.ofNat 8 k) v
    rw [loadBytes_cons h]
    obtain rfl | hlt := Nat.eq_or_lt_of_le hkj
    · rw [readMem_loadBytes_below h' hm' hfit' (Nat.lt_succ_self k), State.readMem_writeMem hm, if_pos rfl, Nat.sub_self,
        List.getD_cons_zero]
    · have hne := ofNat_addr_ne hj (by omega) (Nat.ne_of_gt hlt)
      have hsub : j - k = j - (k + 1) + 1 := by omega
      rw [ih h' hm' hfit' hlt, State.readMem_writeMem hm, if_neg hne, hsub, List.getD_cons_succ]

end Sys2Proof.Machine
end

section
/-! PROOFS of the statements about the reset and the launch (70_reset_and_hazards.md). -/

namespace Sys2Proof.Machine

/-- The state the loader starts from: the reset state, with the value of `EXT_ALU` (70_reset_and_hazards.md R128). -/
def resetWith (ext : Bool) : State := { State.reset with extAlu := ext }

/-- A program that fits in memory is launched: loaded from address 0 into the reset state, and the engine started. -/
theorem launch_of_fits (ext : Bool) {program : List Byte} (h : program.length ≤ 256) :
    launch ext program = .ok { loadBytes 0 program (resetWith ext) with engine := .running } := by
  have hfits : fitsMemory program = .ok program := if_neg (Nat.not_lt.mpr h)
  have hidle : (loadBytes 0 program (resetWith ext)).engine = .idle := by
    rw [loadBytes_eq_with_mem (s := resetWith ext) rfl]
    rfl
  rw [← State.onRun_of_idle hidle, launch, hfits]
  rfl

/-- Settles O45: the program bytes are what the loader puts in memory, 0 beyond them is what reset left there, and the other
components are those the loader does not write. -/
theorem launchStateOfProgram : Obligations.LaunchStateOfProgram := by
  unfold Obligations.LaunchStateOfProgram
  intro ext program hlen
  refine ⟨_, launch_of_fits ext hlen, fun k hk => ?cells, ?others⟩
  case cells =>
    have hfit : 0 + program.length ≤ 256 := by omega
    exact readMem_loadBytes (s := resetWith ext) rfl rfl hfit (Nat.zero_le k) hk
  case others =>
    rw [loadBytes_eq_with_mem (s := resetWith ext) rfl]
    rfl

end Sys2Proof.Machine
end

section
/-! SUPPORT. The decoder and the encoder agree row by row: what a row of the opcode table builds, the encoder takes apart, and
every instruction is built by the row of its first byte. -/

namespace Sys2Proof

variable {ext : Bool} {op : Byte} {row row' : Row} {i : Instr} {bytes operands rest : List Byte}

/-- Every instruction of the format has the opcode `op`, exactly the operand bytes it was built from, and is an extension
instruction as `extension` says. -/
def Form.EncodesTo (op : Byte) (extension : Bool) : Form → Prop
  | .f0 i => encode i = [op] ∧ i.isExtension = extension
  | .f1 mk => ∀ a, encode (mk a) = [op, a] ∧ (mk a).isExtension = extension
  | .f2 mk => ∀ a b, encode (mk a b) = [op, a, b] ∧ (mk a b).isExtension = extension

theorem opcodeTable_encodesTo (h : row ∈ opcodeTable) : row.form.EncodesTo row.opcode row.extension := by
  have hall : ∀ row ∈ opcodeTable, row.form.EncodesTo row.opcode row.extension := by
    simp [opcodeTable, Form.EncodesTo, encode, Instr.isExtension]
  exact hall row h

/-- What a row builds is encoded as the row's byte and the operand bytes it took. -/
theorem encode_of_takeOperands (h : row ∈ opcodeTable) (hi : takeOperands row.opcode row.form operands = .ok (i, rest)) :
    row.opcode :: operands = encode i ++ rest ∧ i.isExtension = row.extension := by
  have hrow := opcodeTable_encodesTo h
  rcases takeOperands_ok hi with ⟨hf, rfl⟩ | ⟨mk, a, hf, rfl, rfl⟩ | ⟨mk, a, b, hf, rfl, rfl⟩
  · rw [hf] at hrow
    obtain ⟨hbytes, hext⟩ := hrow
    exact ⟨by rw [hbytes]; rfl, hext⟩
  · rw [hf] at hrow
    obtain ⟨hbytes, hext⟩ := hrow a
    exact ⟨by rw [hbytes]; rfl, hext⟩
  · rw [hf] at hrow
    obtain ⟨hbytes, hext⟩ := hrow a b
    exact ⟨by rw [hbytes]; rfl, hext⟩

theorem row_eq_of_opcode_eq (h : row ∈ opcodeTable) (h' : row' ∈ opcodeTable) (hop : row.opcode = row'.opcode) : row = row' :=
  List.inj_on_of_nodup_map (List.pairwise_map.mpr opcodeTable_no_overlap) h h' hop

/-- The decoder finds every row that is registered: no other row has its byte. -/
theorem lookupRow_of_mem (h : row ∈ opcodeTable) (hext : row.extension = true → ext = true) :
    lookupRow ext row.opcode = some row := by
  cases hfound : lookupRow ext row.opcode with
  | none =>
    have hregistered : (!row.extension || ext) = true := by
      cases hrow : row.extension with
      | false => rfl
      | true => exact hext hrow
    exact absurd (by simp [hregistered]) (List.find?_eq_none.mp hfound row h)
  | some row' =>
    obtain ⟨h', hop, -⟩ := lookupRow_some hfound
    rw [row_eq_of_opcode_eq h' h hop]

/-- Every instruction has its row, which builds it from the operand bytes of its encoding. -/
theorem exists_row_of_instr (i : Instr) : ∃ op operands row, encode i = op :: operands ∧ lookupRow true op = some row ∧
    row.extension = i.isExtension ∧ ∀ rest, takeOperands op row.form (operands ++ rest) = .ok (i, rest) := by
  cases i <;> exact ⟨_, _, _, rfl, rfl, rfl, fun _ => rfl⟩

theorem registered_iff : i.registered ext = true ↔ (i.isExtension = true → ext = true) := by
  cases h : i.isExtension <;> simp [Instr.registered, h]

/-- A registered instruction's first byte leads the decoder to the row that builds the instruction. -/
theorem lookupRow_of_registered (h : i.registered ext = true) : ∃ op operands row, encode i = op :: operands ∧
    lookupRow ext op = some row ∧ ∀ rest, takeOperands op row.form (operands ++ rest) = .ok (i, rest) := by
  obtain ⟨op, operands, row, hbytes, hrow, hext, htake⟩ := exists_row_of_instr i
  obtain ⟨hmem, rfl, -⟩ := lookupRow_some hrow
  rw [registered_iff, ← hext] at h
  exact ⟨_, operands, row, hbytes, lookupRow_of_mem hmem h, htake⟩

theorem encode_length (i : Instr) : (encode i).length = i.operandCount + 1 := by
  cases i <;> rfl

theorem decode_encode_append (h : i.registered ext = true) (rest : List Byte) :
    decode ext (encode i ++ rest) = .ok (i, rest) := by
  obtain ⟨op, operands, row, hbytes, hrow, htake⟩ := lookupRow_of_registered h
  simp only [hbytes, List.cons_append, decode, hrow, htake]

theorem encode_of_decode (h : decode ext bytes = .ok (i, rest)) : bytes = encode i ++ rest ∧ i.registered ext = true := by
  obtain ⟨op, operands, row, rfl, hrow, htake⟩ := decode_ok h
  obtain ⟨hmem, rfl, hregistered⟩ := lookupRow_some hrow
  obtain ⟨hbytes, hext⟩ := encode_of_takeOperands hmem htake
  exact ⟨hbytes, registered_iff.mpr (hext ▸ hregistered)⟩

/-- A list with fewer bytes than the operands of the instruction its row builds. -/
theorem takeOperands_of_short {short : List Byte} {f : Form} (h : takeOperands op f operands = .ok (i, []))
    (hshort : short.length < operands.length) : takeOperands op f short = .error (.missingOperands op) := by
  rcases takeOperands_ok h with ⟨rfl, rfl⟩ | ⟨mk, a, rfl, -, rfl⟩ | ⟨mk, a, b, rfl, -, rfl⟩
  · cases hshort
  · rw [List.length_singleton, Nat.lt_one_iff, List.length_eq_zero_iff] at hshort
    rw [hshort, takeOperands]
  · match short, hshort with
    | [], _ => rfl
    | [_], _ => rfl

/-- A registered opcode without all its operand bytes is rejected as that (40_dispatcher.md R63). -/
theorem decode_of_missing_operands (h : i.registered ext = true) (hop : (encode i).head? = some op)
    (hshort : rest.length < i.operandCount) : decode ext (op :: rest) = .error (.missingOperands op) := by
  obtain ⟨op', operands, row, hbytes, hrow, htake⟩ := lookupRow_of_registered h
  have hlen := encode_length i
  rw [hbytes] at hop hlen
  cases hop
  have htake' := htake []
  rw [List.append_nil] at htake'
  have hshort' : rest.length < operands.length := Nat.lt_of_lt_of_eq hshort (Nat.succ.inj hlen).symm
  simp only [decode, hrow, takeOperands_of_short htake' hshort']

end Sys2Proof
end

section
/-! PROOFS of the statements about encoding and decoding (30_encoding.md). -/

namespace Sys2Proof

/-- Settles O1: each row of the table builds instructions whose encoding is the row's byte and the operand bytes taken, and no
two rows have the same byte. -/
theorem decodeEncodeAgree : Obligations.DecodeEncodeAgree := by
  unfold Obligations.DecodeEncodeAgree
  intro ext bytes rest i
  constructor
  · exact encode_of_decode
  · rintro ⟨rfl, hregistered⟩
    exact decode_encode_append hregistered rest

/-- Settles O2: the bytes of each row are the encoding of its instruction, which is registered for every value of `EXT_ALU`;
any other byte has no row. -/
theorem opcodeTableRows : Obligations.OpcodeTableRows := by
  unfold Obligations.OpcodeTableRows
  intro a b rest
  refine ⟨decode_encode_append (i := .hlt) rfl rest, decode_encode_append (i := .ldi a b) rfl rest,
    decode_encode_append (i := .prn a) rfl rest, decode_encode_append (i := .mul a b) rfl rest,
    decode_encode_append (i := .push a) rfl rest, decode_encode_append (i := .pop a) rfl rest,
    decode_encode_append (i := .call a) rfl rest, decode_encode_append (i := .ret) rfl rest,
    decode_encode_append (i := .add a b) rfl rest, decode_encode_append (i := .cmp a b) rfl rest,
    decode_encode_append (i := .jeq a) rfl rest, decode_encode_append (i := .jmp a) rfl rest,
    decode_encode_append (i := .jne a) rfl rest, fun op hop => ?_⟩
  rw [← opcodesOf_base] at hop
  exact decode_of_no_row (lookupRow_eq_none hop (by simp)) rest

/-- The two opcode tables have no byte in common. -/
theorem opcodesOf_disjoint : ∀ op ∈ opcodesOf true, op ∉ opcodesOf false := by
  rw [opcodesOf_base, opcodesOf_extension]
  decide

/-- Settles O3: the extension instructions are registered when `EXT_ALU` is true, and their bytes have no row when it is
false. -/
theorem extensionRowsNeedParameter : Obligations.ExtensionRowsNeedParameter := by
  unfold Obligations.ExtensionRowsNeedParameter
  intro a b rest
  refine ⟨decode_encode_append (i := .sub a b) rfl rest, decode_encode_append (i := .and a b) rfl rest,
    decode_encode_append (i := .or a b) rfl rest, decode_encode_append (i := .xor a b) rfl rest,
    decode_encode_append (i := .shl a b) rfl rest, decode_encode_append (i := .shr a b) rfl rest, fun op hop => ?_⟩
  rw [← opcodesOf_extension] at hop
  exact decode_of_no_row (lookupRow_eq_none (opcodesOf_disjoint op hop) (by simp)) rest

end Sys2Proof
end

section
/-! SUPPORT. The bytes the fetch reads, against the encoding of an instruction; and what a step can do, with the instruction
it decoded. -/

namespace Sys2Proof.Machine

variable {s t : State} {i : Instr}

/-- The fetch reads as many of the three bytes from `pc` on as lie at or below 255 (40_dispatcher.md R61, R63). -/
theorem fetchBytes_eq (s : State) :
    fetchBytes s = (List.range (min 3 (256 - s.pc.toNat))).map fun k => s.readMem (s.pcPlus k) := by
  have hlt := s.pc.isLt
  unfold fetchBytes
  congr 1
  obtain h | h | h : s.pc.toNat ≤ 253 ∨ s.pc.toNat = 254 ∨ s.pc.toNat = 255 := by omega
  · have hmin : min 3 (256 - s.pc.toNat) = 3 := by omega
    have h1 : s.pc.toNat < 255 := by omega
    have h2 : s.pc.toNat ≤ 255 := by omega
    simp [hmin, h, h1, h2, List.range_succ]
  · simp [h, List.range_succ]
  · simp [h, List.range_succ]

theorem fetchBytes_length (s : State) : (fetchBytes s).length = min 3 (256 - s.pc.toNat) := by
  simp [fetchBytes_eq]

theorem operandCount_le (i : Instr) : i.operandCount ≤ 2 := by
  cases i <;> simp [Instr.operandCount]

/-- When memory holds the bytes of an instruction from `pc` on, they are what the fetch reads first. -/
theorem fetchBytes_of_bytes_in_memory (hp : s.pc.toNat + i.operandCount ≤ 255)
    (hmem : ∀ (k : Nat) (v : Byte), (encode i)[k]? = some v → s.readMem (BitVec.ofNat 8 (s.pc.toNat + k)) = v) :
    ∃ rest, fetchBytes s = encode i ++ rest := by
  have hcount := operandCount_le i
  have hlen := encode_length i
  have hfits : (encode i).length ≤ min 3 (256 - s.pc.toNat) := by omega
  have htake : (fetchBytes s).take (encode i).length = encode i := by
    rw [fetchBytes_eq]
    refine List.ext_getElem (by simpa using hfits) fun k _ hk => ?_
    simpa [State.pcPlus] using hmem k _ (List.getElem?_eq_getElem hk)
  refine ⟨(fetchBytes s).drop (encode i).length, ?_⟩
  rw [← htake, List.length_take_of_le (by rwa [fetchBytes_length]), List.take_append_drop]

theorem fetchDecode_of_decode {rest : List Byte} (h : decode s.extAlu (fetchBytes s) = .ok (i, rest)) :
    fetchDecode s = .ok i := by
  rw [fetchDecode, h]
  rfl

/-- A decoded instruction is registered, and the byte at `pc` is its opcode. -/
theorem fetchDecode_ok (h : fetchDecode s = .ok i) :
    i.registered s.extAlu = true ∧ (encode i).head? = some (s.readMem s.pc) := by
  cases hd : decode s.extAlu (fetchBytes s) with
  | error r =>
    rw [fetchDecode, hd] at h
    cases h
  | ok decoded =>
    obtain ⟨j, rest⟩ := decoded
    rw [fetchDecode_of_decode hd] at h
    cases h
    obtain ⟨hbytes, hregistered⟩ := encode_of_decode hd
    have hlen := encode_length i
    have hne : encode i ≠ [] := by
      rw [← List.length_pos_iff_ne_nil]
      omega
    exact ⟨hregistered, by rw [← fetchBytes_head, hbytes, List.head?_append_of_ne_nil _ hne]⟩

theorem step_of_fetchDecode (hrunning : s.engine = .running) (h : fetchDecode s = .ok i) : step s = exec i s := by
  simp only [step, hrunning, h]

theorem rejectCause_ne_aluError (r : Reject) : rejectCause r ≠ .aluError := by
  cases r <;> simp [rejectCause]

/-- Everything a step can answer as a next state: a fault taken from `s`, never AluError; the halt of a decoded HLT; or the
effect of the decoded instruction. -/
inductive StepCase (s t : State) : Prop
  | fault (c : Cause) (hc : c ≠ .aluError) (ht : t = s.enterFault c)
  | halt (hi : fetchDecode s = .ok .hlt) (ht : t = s.halt)
  | done (i : Instr) (hi : fetchDecode s = .ok i) (h : Effect i s t)

theorem step_stepCase (h : step s = .next t) : StepCase s t := by
  obtain ⟨-, ⟨i, hi, hexec⟩ | ⟨r, -, ht⟩⟩ := step_cases h
  · obtain ⟨hregistered, -⟩ := fetchDecode_ok hi
    cases exec_cases hexec with
    | fault c hc ht => exact .fault c (fun e => by simp [hc e] at hregistered) ht
    | halt hhlt ht => exact .halt (hhlt ▸ hi) ht
    | done heffect => exact .done i hi heffect
  · exact .fault _ (rejectCause_ne_aluError r) ht

/-- A decoded HLT is the byte 0x01 at `pc` (30_encoding.md R49). -/
theorem readMem_pc_of_fetchDecode_hlt (h : fetchDecode s = .ok .hlt) : s.readMem s.pc = 0x01 := by
  obtain ⟨-, hbyte⟩ := fetchDecode_ok h
  exact (Option.some.inj hbyte).symm

theorem Effect.engine_eq (h : Effect i s t) : t.engine = s.engine := by
  cases h <;> rfl

theorem Effect.fault_eq (h : Effect i s t) : t.fault = s.fault := by
  cases h <;> rfl

theorem Effect.extAlu_eq (h : Effect i s t) : t.extAlu = s.extAlu := by
  cases h <;> rfl

end Sys2Proof.Machine
end

section
/-! PROOFS of the statements about the step (40_dispatcher.md). -/

namespace Sys2Proof.Machine

/-- Settles O4: the step of a Running engine is what the decoded instruction answers. -/
theorem stepRunsDecodedInstruction : Obligations.StepRunsDecodedInstruction := by
  unfold Obligations.StepRunsDecodedInstruction
  intro s i rest hrunning hdecode
  exact step_of_fetchDecode hrunning (fetchDecode_of_decode hdecode)

/-- Settles O5: the fetch reads the encoding first, and decoding an encoding gives the instruction back. -/
theorem stepRunsBytesInMemory : Obligations.StepRunsBytesInMemory := by
  unfold Obligations.StepRunsBytesInMemory
  intro s i hrunning hregistered hp hmem
  obtain ⟨rest, hbytes⟩ := fetchBytes_of_bytes_in_memory hp hmem
  have hdecode : decode s.extAlu (fetchBytes s) = .ok (i, rest) := by
    rw [hbytes]
    exact decode_encode_append hregistered rest
  exact step_of_fetchDecode hrunning (fetchDecode_of_decode hdecode)

/-- Settles O7: fewer bytes than the instruction has operands follow the opcode byte, so the decoder misses operands. -/
theorem operandsPastMemoryEndFault : Obligations.OperandsPastMemoryEndFault := by
  unfold Obligations.OperandsPastMemoryEndFault
  intro s i hrunning hregistered hop hp
  obtain ⟨rest, hbytes⟩ := List.head?_eq_some_iff.mp (fetchBytes_head s)
  have hshort : rest.length < i.operandCount := by
    have hlen := fetchBytes_length s
    rw [hbytes, List.length_cons] at hlen
    omega
  have hfetch : fetchDecode s = .error (.missingOperands (s.readMem s.pc)) := by
    rw [fetchDecode, hbytes, decode_of_missing_operands hregistered hop hshort]
    rfl
  exact step_of_rejected_fetch hrunning hfetch

/-- Settles O8: the step looks at the engine first. -/
theorem noStepUnlessRunning : Obligations.NoStepUnlessRunning := by
  unfold Obligations.NoStepUnlessRunning
  intro s
  constructor
  · intro hidle
    simp only [step, hidle]
  · intro hhalted
    simp only [step, hhalted]

/-- Settles O9: the three cases of a step. An effect writes neither the engine nor the record. -/
theorem stepCompletesHaltsOrFaults : Obligations.StepCompletesHaltsOrFaults := by
  unfold Obligations.StepCompletesHaltsOrFaults
  intro s t hstep
  obtain ⟨hrunning, -⟩ := step_cases hstep
  cases step_stepCase hstep with
  | fault c _ ht => exact .inr (.inr ⟨c, ht⟩)
  | halt hhlt ht => exact .inr (.inl ⟨readMem_pc_of_fetchDecode_hlt hhlt, ht⟩)
  | done i _ heffect => exact .inl ⟨heffect.engine_eq.trans hrunning, heffect.fault_eq⟩

end Sys2Proof.Machine
end

section
/-! PROOFS of the statements about what every step and every input keeps. -/

namespace Sys2Proof.Machine

variable {s t : State} {i : Instr} {p : Pins}

theorem Effect.mem_wf (h : Effect i s t) (hm : s.mem.wf = true) : t.mem.wf = true := by
  cases h with
  | push v p hsp => exact Memory.write_wf hm s.pushAddr v
  | setReg r v p => exact hm
  | compare a b ra rb p hi => exact hm
  | emit a r p hi ha => exact hm
  | jump p => exact hm
  | pop r v w p => exact hm
  | ret w p => exact hm

/-- A state with no fault recorded that is not Halted meets the invariant as soon as its memory is canonical. -/
theorem State.Inv.of_no_fault (hm : s.mem.wf = true) (hfault : s.fault = none) (hengine : s.engine ≠ .halted) : s.Inv where
  memCanonical := hm
  faultHalts r hr := by simp [hfault] at hr
  faultAtPc r hr := by simp [hfault] at hr
  noAluError r hr := by simp [hfault] at hr
  cleanHaltAtHlt h := absurd h hengine

theorem State.Inv.fault_eq_none (h : s.Inv) (hengine : s.engine ≠ .halted) : s.fault = none := by
  cases hfault : s.fault with
  | none => rfl
  | some r => exact absurd (h.faultHalts r hfault) hengine

/-- The fault entry records the `pc` and the byte there, and keeps both (60_exceptions.md R110). -/
theorem State.Inv.enterFault {c : Cause} (h : s.Inv) (hc : c ≠ .aluError) : (s.enterFault c).Inv where
  memCanonical := h.memCanonical
  faultHalts _ _ := rfl
  faultAtPc r hr := by
    cases hr
    exact ⟨rfl, rfl⟩
  noAluError r hr := by
    cases hr
    exact hc
  cleanHaltAtHlt _ hr := by cases hr

theorem State.Inv.halt (h : s.Inv) (hfault : s.fault = none) (hhlt : s.readMem s.pc = 0x01) : s.halt.Inv where
  memCanonical := h.memCanonical
  faultHalts _ _ := rfl
  faultAtPc r hr := by simp [hfault] at hr
  noAluError r hr := by simp [hfault] at hr
  cleanHaltAtHlt _ _ := hhlt

theorem step_inv (h : s.Inv) (hstep : step s = .next t) : t.Inv := by
  obtain ⟨hrunning, -⟩ := step_cases hstep
  have hfault : s.fault = none := h.fault_eq_none (by simp [hrunning])
  cases step_stepCase hstep with
  | fault c hc ht => exact ht ▸ h.enterFault hc
  | halt hhlt ht => exact ht ▸ h.halt hfault (readMem_pc_of_fetchDecode_hlt hhlt)
  | done i _ heffect =>
    have hengine : t.engine ≠ .halted := by simp [heffect.engine_eq, hrunning]
    exact .of_no_fault (heffect.mem_wf h.memCanonical) (heffect.fault_eq.trans hfault) hengine

theorem State.onReset_inv (s : State) : s.onReset.Inv :=
  .of_no_fault (s := s.onReset) rfl rfl (by simp [State.onReset, State.reset])

/-- While Idle the load port acts, and then `run`; both may (10_state.md R27, R28; log 10). -/
theorem State.onPins_of_idle (hidle : s.engine = .idle) (hrst : p.rst = false) :
    s.onPins p = { s with
      engine := if p.run then .running else .idle
      mem := if p.ldWe then s.mem.write p.ldAddr p.ldData else s.mem } := by
  have hload : (if p.ldWe then s.onLoad p.ldAddr p.ldData else s) =
      { s with mem := if p.ldWe then s.mem.write p.ldAddr p.ldData else s.mem } := by
    split
    · exact State.onLoad_of_idle hidle p.ldAddr p.ldData
    · rfl
  simp only [State.onPins, hrst, Bool.false_eq_true, if_false, hload]
  cases p.run with
  | true => exact State.onRun_of_idle hidle
  | false => simp [← hidle]

theorem State.onPins_inv (h : s.Inv) (hidle : s.engine = .idle) (hrst : p.rst = false) : (s.onPins p).Inv := by
  have hfault := h.fault_eq_none (by simp [hidle])
  rw [State.onPins_of_idle hidle hrst]
  refine .of_no_fault ?_ hfault ?_
  · dsimp only
    split
    · exact Memory.write_wf h.memCanonical p.ldAddr p.ldData
    · exact h.memCanonical
  · dsimp only
    split <;> simp

theorem tick_of_rst (hrst : p.rst = true) (s : State) : tick p s = .next s.onReset := by
  simp only [tick, hrst, if_true]

theorem tick_of_running (hrst : p.rst = false) (hrunning : s.engine = .running) : tick p s = step s := by
  simp [tick, hrst, hrunning]

theorem tick_of_idle (hrst : p.rst = false) (hidle : s.engine = .idle) : tick p s = .next (s.onPins p) := by
  simp [tick, hrst, hidle]

/-- Everything a tick can answer as a next state. -/
theorem tick_cases (h : tick p s = .next t) :
    t = s.onReset ∨ step s = .next t ∨ t = s ∨ (s.engine = .idle ∧ p.rst = false ∧ t = s.onPins p) := by
  cases hrst : p.rst with
  | true =>
    rw [tick_of_rst hrst] at h
    cases h
    exact .inl rfl
  | false =>
    cases hengine : s.engine with
    | running =>
      rw [tick_of_running hrst hengine] at h
      exact .inr (.inl h)
    | halted =>
      rw [tick_of_halted hengine hrst] at h
      cases h
      exact .inr (.inr (.inl rfl))
    | idle =>
      rw [tick_of_idle hrst hengine] at h
      cases h
      exact .inr (.inr (.inr ⟨rfl, rfl, rfl⟩))

theorem tick_inv (h : s.Inv) (htick : tick p s = .next t) : t.Inv := by
  rcases tick_cases htick with rfl | hstep | rfl | ⟨hidle, hrst, rfl⟩
  · exact s.onReset_inv
  · exact step_inv h hstep
  · exact h
  · exact State.onPins_inv h hidle hrst

/-- Settles O47: the reset state is what `rst` gives from itself. -/
theorem resetMeetsInvariant : Obligations.ResetMeetsInvariant := by
  unfold Obligations.ResetMeetsInvariant
  exact State.reset.onReset_inv

/-- Settles O48: a fault entry and a halt each meet the invariant's clauses about Halted; an effect keeps memory canonical and
stays Running. -/
theorem stepKeepsInvariant : Obligations.StepKeepsInvariant := by
  unfold Obligations.StepKeepsInvariant
  intro s t hinv hstep
  exact step_inv hinv hstep

/-- Settles O49, by induction on the inputs: a reset, a step and the ports of an Idle engine each keep the invariant. -/
theorem ticksKeepInvariant : Obligations.TicksKeepInvariant := by
  unfold Obligations.TicksKeepInvariant
  exact ticks_invariant fun p s t hinv htick => tick_inv hinv htick

theorem step_extAlu (h : step s = .next t) : t.extAlu = s.extAlu := by
  cases step_stepCase h with
  | fault c _ ht => exact ht ▸ s.enterFault_extAlu c
  | halt _ ht => exact ht ▸ s.halt_extAlu
  | done i _ heffect => exact heffect.extAlu_eq

theorem tick_extAlu (h : tick p s = .next t) : t.extAlu = s.extAlu := by
  rcases tick_cases h with rfl | hstep | rfl | ⟨hidle, hrst, rfl⟩
  · rfl
  · exact step_extAlu hstep
  · rfl
  · rw [State.onPins_of_idle hidle hrst]

/-- Settles O50: no tick writes the parameter, by induction on the inputs; and a decoded instruction is registered. -/
theorem extAluNeverChanges : Obligations.ExtAluNeverChanges := by
  unfold Obligations.ExtAluNeverChanges
  constructor
  · intro ps s t h
    exact ticks_invariant (P := fun u => u.extAlu = s.extAlu) (fun p u v hu htick => (tick_extAlu htick).trans hu) ps s t rfl h
  · intro s i hext hfetch
    obtain ⟨hregistered, -⟩ := fetchDecode_ok hfetch
    simpa [Instr.registered, hext] using hregistered

end Sys2Proof.Machine
end

section
/-! PROOFS of the statements about the reset and the ports (10_state.md sections 8 and 9). -/

namespace Sys2Proof.Machine

variable {s : State}

/-- Settles O42: `rst` is looked at first, and every component of the reset state has its value by definition. -/
theorem resetGivesStatedValues : Obligations.ResetGivesStatedValues := by
  unfold Obligations.ResetGivesStatedValues
  intro p s hrst
  have hregs : ∀ r : RegIdx, State.reset.reg r = if r = 7 then 0xF4 else 0x00 := by decide
  refine ⟨s.onReset, tick_of_rst hrst s, fun a => rfl, hregs, rfl, rfl, rfl, rfl, rfl, rfl, rfl, rfl, fun hext => ?_⟩
  rw [State.onReset, hext]
  rfl

/-- Settles O43: one law of `tick` for `rst` and one for each engine state. -/
theorem inputPortsAct : Obligations.InputPortsAct := by
  unfold Obligations.InputPortsAct
  intro p s
  refine ⟨fun hrst => tick_of_rst hrst s, tick_of_running, fun hrst hhalted => tick_of_halted hhalted hrst,
    fun hrst hidle => ?_⟩
  rw [tick_of_idle hrst hidle, State.onPins_of_idle hidle hrst]

theorem statusPorts_stEngine (s : State) : s.statusPorts.stEngine = s.engine.code := by
  unfold State.statusPorts
  split <;> rfl

theorem statusPorts_stFl (s : State) : s.statusPorts.stFl = s.flags.packed := by
  unfold State.statusPorts
  split <;> rfl

theorem statusPorts_of_no_fault (h : s.fault = none) : s.statusPorts = ⟨s.engine.code, 0, 0, 0, s.flags.packed⟩ := by
  simp only [State.statusPorts, h]

theorem statusPorts_of_fault {r : FaultRecord} (h : s.fault = some r) :
    s.statusPorts = ⟨s.engine.code, r.cause.code, r.fpc, r.fop, s.flags.packed⟩ := by
  simp only [State.statusPorts, h]

/-- The code 0 is no cause's (10_state.md R19). -/
theorem statusPorts_stCause_eq_zero_iff (s : State) : s.statusPorts.stCause = 0 ↔ s.fault = none := by
  cases h : s.fault with
  | none => simp [statusPorts_of_no_fault h]
  | some r =>
    rw [statusPorts_of_fault h]
    cases hc : r.cause <;> simp [Cause.code]

theorem Flags.packed_bits (f : Flags) :
    f.packed.getLsbD 2 = f.l ∧ f.packed.getLsbD 1 = f.g ∧ f.packed.getLsbD 0 = f.e := by
  obtain ⟨e, l, g⟩ := f
  cases e <;> cases l <;> cases g <;> decide

theorem exitZero_eq_some_iff (s : State) (b : Bool) : s.exitZero = some b ↔ s.engine = .halted ∧ s.cleanHalt = b := by
  by_cases h : s.engine = .halted <;> simp [State.exitZero, h]

/-- Settles O44: the codes of the engine states differ and none of a cause is 0; the packing keeps each flag in its bit; and
the exit status is whether the halt is clean. -/
theorem statusOutputViews : Obligations.StatusOutputViews := by
  unfold Obligations.StatusOutputViews
  intro s
  rw [statusPorts_stEngine, statusPorts_stFl]
  obtain ⟨hl, hg, he⟩ := s.flags.packed_bits
  refine ⟨?idle, ?running, ?halted, statusPorts_stCause_eq_zero_iff s, fun h => ?noFault, fun r h => ?record, hl, hg, he,
    ?exitZero, ?exitNonZero⟩
  case idle => cases s.engine <;> simp [Engine.code]
  case running => cases s.engine <;> simp [Engine.code]
  case halted => cases s.engine <;> simp [Engine.code]
  case noFault =>
    rw [statusPorts_of_no_fault h]
    exact ⟨rfl, rfl⟩
  case record =>
    rw [statusPorts_of_fault h]
    refine ⟨rfl, rfl, ?_⟩
    cases r.cause <;> rfl
  case exitZero =>
    rw [exitZero_eq_some_iff]
    simp +contextual [State.cleanHalt]
  case exitNonZero =>
    rw [exitZero_eq_some_iff]
    simp +contextual [State.cleanHalt, Option.isSome_iff_ne_none]

end Sys2Proof.Machine
end

section
/-! SUPPORT. The instructions of the ALU and of the stack: the answers of their operand checks, and what each can do. -/

namespace Sys2Proof.Machine

variable {op : AluOp} {a b : Byte} {s t : State}

theorem withRegs_pcRange {k : RegIdx → RegIdx → Answer} (hp : 255 < s.pc.toNat + 2) :
    withRegs a b s k = raise .pcRangeFault s := by
  rw [withRegs, inRange_raise hp]

theorem withRegs_go {k : RegIdx → RegIdx → Answer} {ra rb : RegIdx} (hp : s.pc.toNat + 2 ≤ 255) (ha : a.toNat = ra.val)
    (hb : b.toNat = rb.val) : withRegs a b s k = k ra rb := by
  rw [withRegs, inRange_go hp, regOperand_go ha, regOperand_go hb]

/-- Either register operand is checked (60_exceptions.md R109). -/
theorem withRegs_regIndex {k : RegIdx → RegIdx → Answer} (hp : s.pc.toNat + 2 ≤ 255) (h : 7 < a.toNat ∨ 7 < b.toNat) :
    withRegs a b s k = raise .regIndexFault s := by
  rw [withRegs, inRange_go hp]
  by_cases ha : 7 < a.toNat
  · exact regOperand_raise ha
  · obtain ⟨ra, hra⟩ := legal_operand (Nat.not_lt.mp ha)
    rw [regOperand_go hra]
    exact regOperand_raise (h.resolve_left ha)

/-- The operand bytes end at 255, so the successor is 256 (60_exceptions.md R108 (b)). -/
theorem aluInstr_noSuccessor (ha : a.toNat ≤ 7) (hb : b.toNat ≤ 7) (hp : s.pc.toNat = 253) :
    aluInstr op a b s = raise .pcRangeFault s := by
  obtain ⟨ra, hra⟩ := legal_operand ha
  obtain ⟨rb, hrb⟩ := legal_operand hb
  have hoperands : s.pc.toNat + 2 ≤ 255 := by omega
  have hnext : 255 < s.pc.toNat + 3 := by omega
  rw [aluInstr, withRegs_go hoperands hra hrb, guardNext_raise hnext]

/-- An operation outside the ALU's set comes after the check of the successor (60_exceptions.md R106). -/
theorem aluInstr_aluError {ra rb : RegIdx} (ha : a.toNat = ra.val) (hb : b.toNat = rb.val) (hp : s.pc.toNat ≤ 252)
    (hs : aluSupports s.extAlu op = false) : aluInstr op a b s = raise .aluError s := by
  have hoperands : s.pc.toNat + 2 ≤ 255 := by omega
  have hnext : s.pc.toNat + 3 ≤ 255 := by omega
  rw [aluInstr, withRegs_go hoperands ha hb, guardNext_go hnext, aluApply_error hs]

/-- An operation that has a result writes it to the first register, and `pc` moves past the operand bytes. -/
theorem aluInstr_writes {ra rb : RegIdx} (hop : op ≠ .cmp) (ha : a.toNat = ra.val) (hb : b.toNat = rb.val)
    (hp : s.pc.toNat ≤ 252) (hs : aluSupports s.extAlu op = true) :
    aluInstr op a b s = .next { s with
      regs := s.regs.set ra.val (aluResult op (s.reg ra) (s.reg rb))
      pc := s.pc + 3 } := by
  rw [aluInstr_go ha hb (Nat.add_le_add_right hp 3) hs, aluEffect, if_neg hop, State.pcPlus_eq]
  rfl

/-- CMP writes flags, and `pc` moves past the operand bytes. -/
theorem exec_cmp_go {ra rb : RegIdx} (ha : a.toNat = ra.val) (hb : b.toNat = rb.val) (hp : s.pc.toNat ≤ 252) :
    exec (.cmp a b) s = .next { s with flags := compareFlags (s.reg ra) (s.reg rb) s.flags, pc := s.pc + 3 } := by
  have hgo : exec (.cmp a b) s = _ := aluInstr_go (op := .cmp) ha hb (Nat.add_le_add_right hp 3) rfl
  rw [hgo, aluEffect, if_pos rfl, State.pcPlus_eq]
  rfl

theorem compareFlags_of_eq {x y : Byte} (h : x.toNat = y.toNat) (f : Flags) : compareFlags x y f = { f with e := true } := by
  rw [compareFlags, if_pos (BitVec.eq_of_toNat_eq h)]

theorem compareFlags_of_gt {x y : Byte} (h : y.toNat < x.toNat) (f : Flags) : compareFlags x y f = { f with g := true } := by
  have hne : x ≠ y := fun e => by simp [e] at h
  rw [compareFlags, if_neg hne, if_pos h]

theorem compareFlags_of_lt {x y : Byte} (h : x.toNat < y.toNat) (f : Flags) : compareFlags x y f = { f with l := true } := by
  have hne : x ≠ y := fun e => by simp [e] at h
  rw [compareFlags, if_neg hne, if_neg (Nat.not_lt.mpr (Nat.le_of_lt h))]

/-- PUSH and CALL on a legal operand reach the overflow guard. -/
theorem exec_push_guard {r : RegIdx} (ha : a.toNat = r.val) (hp : s.pc.toNat ≤ 254) :
    exec (.push a) s = guardPush s (fallThrough 2 s (State.pushByte fun s' => s'.reg r)) :=
  withReg_go (Nat.succ_le_succ hp) ha

theorem exec_call_guard {r : RegIdx} (ha : a.toNat = r.val) (hp : s.pc.toNat ≤ 254) :
    exec (.call a) s = guardPush s (guardNext 2 s
      (.next ((s.pushByte fun _ => s.pcPlus 2).setPc ((s.pushByte fun _ => s.pcPlus 2).reg r)))) :=
  withReg_go (Nat.succ_le_succ hp) ha

/-- POP on a legal operand reaches the underflow guard. -/
theorem exec_pop_guard {r : RegIdx} (ha : a.toNat = r.val) (hp : s.pc.toNat ≤ 254) :
    exec (.pop a) s = guardPop (popBase r s) s
      (fallThrough 2 s fun s => (s.setReg r (s.readMem s.sp)).setSp (popBase r s + 1)) :=
  withReg_go (Nat.succ_le_succ hp) ha

theorem exec_push_go {r : RegIdx} (ha : a.toNat = r.val) (hp : s.pc.toNat ≤ 253) (hsp : (s.reg 7).toNat ≠ 0) :
    exec (.push a) s = .next (((s.setSp s.pushAddr).writeMem s.pushAddr (if r = 7 then s.pushAddr else s.reg r)).setPc
      (s.pc + 2)) := by
  rw [exec_push_guard ha (Nat.le_succ_of_le hp), guardPush_go hsp, fallThrough_go (Nat.add_le_add_right hp 2), pushByte_eq,
    State.reg_setSp]
  rfl

theorem exec_call_go {r : RegIdx} (ha : a.toNat = r.val) (hp : s.pc.toNat ≤ 253) (hsp : (s.reg 7).toNat ≠ 0) :
    exec (.call a) s = .next (((s.setSp s.pushAddr).writeMem s.pushAddr (s.pc + 2)).setPc
      (if r = 7 then s.pushAddr else s.reg r)) := by
  rw [exec_call_guard ha (Nat.le_succ_of_le hp), guardPush_go hsp, guardNext_go (Nat.add_le_add_right hp 2), pushByte_eq,
    State.reg_writeMem, State.reg_setSp, State.pcPlus_eq]
  rfl

/-- POP whose underflow guard holds completes, with the popped byte in the register and then `SP` incremented. -/
theorem exec_pop_go {r : RegIdx} (ha : a.toNat = r.val) (hp : s.pc.toNat ≤ 253) (hbase : (popBase r s).toNat ≠ 255) :
    exec (.pop a) s = .next (((s.setReg r (s.readMem s.sp)).setSp (popBase r s + 1)).setPc (s.pc + 2)) := by
  rw [exec_pop_guard ha (Nat.le_succ_of_le hp), guardPop_go hbase, fallThrough_go (Nat.add_le_add_right hp 2)]
  rfl

theorem popBase_of_ne {r : RegIdx} (h : r ≠ 7) : popBase r s = s.sp := if_neg h

theorem popBase_of_sp (s : State) : popBase 7 s = s.readMem s.sp := rfl

theorem setSp_setReg_sp (s : State) (v w : Byte) : (s.setReg 7 v).setSp w = s.setSp w := by
  simp [State.setSp, State.setReg, Config.spIndex]

/-- Everything CMP can do: a fault, or the flag of its outcome. -/
theorem exec_cmp_cases (h : exec (.cmp a b) s = .next t) : (∃ c, FaultedFrom c s t) ∨
    ∃ ra rb : RegIdx, a.toNat = ra.val ∧ b.toNat = rb.val ∧
      t = (s.setFlags (compareFlags (s.reg ra) (s.reg rb) s.flags)).setPc (s.pcPlus 3) := by
  rcases aluInstr_cases (op := .cmp) h with ⟨c, -, ht⟩ | ⟨-, ht⟩ | ⟨ra, rb, ha, hb, -, -, ht⟩
  · exact .inl ⟨c, ht⟩
  · exact .inl ⟨_, ht⟩
  · exact .inr ⟨ra, rb, ha, hb, ht⟩

/-- Everything an ALU instruction with a result can do: a fault, or a write to the register its first operand names. -/
theorem aluInstr_write_cases (hop : op ≠ .cmp) (h : aluInstr op a b s = .next t) : (∃ c, FaultedFrom c s t) ∨
    ∃ (r : RegIdx) (v : Byte) (p : Addr), a.toNat = r.val ∧ t = (s.setReg r v).setPc p := by
  rcases aluInstr_cases h with ⟨c, -, ht⟩ | ⟨-, ht⟩ | ⟨ra, rb, ha, -, -, -, ht⟩
  · exact .inl ⟨c, ht⟩
  · exact .inl ⟨_, ht⟩
  · rw [aluEffect, if_neg hop] at ht
    exact .inr ⟨ra, _, _, ha, ht⟩

/-- Everything LDI and PRN can do: a fault, or the effect on the register the operand names, and the fall-through. -/
theorem regEffectInstr_cases {n : Nat} {effect : RegIdx → State → State} (h : regEffectInstr n effect a s = .next t) :
    (∃ c, FaultedFrom c s t) ∨ ∃ r : RegIdx, a.toNat = r.val ∧ t = (effect r s).setPc (s.pcPlus (n + 1)) := by
  rcases withReg_cases h with ⟨c, -, ht⟩ | ⟨r, ha, -, h⟩
  · exact .inl ⟨c, ht⟩
  rcases fallThrough_cases h with ⟨-, ht⟩ | ⟨-, ht⟩
  · exact .inl ⟨_, ht⟩
  · exact .inr ⟨r, ha, ht⟩

/-- Everything a branch can do: a fault, or a new `pc`. -/
theorem branchInstr_cases {c : Bool} (h : branchInstr c a s = .next t) :
    (∃ cause, FaultedFrom cause s t) ∨ ∃ p, t = s.setPc p := by
  rcases withReg_cases h with ⟨cause, -, ht⟩ | ⟨r, -, -, h⟩
  · exact .inl ⟨cause, ht⟩
  cases c with
  | true =>
    cases h
    exact .inr ⟨_, rfl⟩
  | false =>
    rcases fallThrough_cases h with ⟨-, ht⟩ | ⟨-, ht⟩
    · exact .inl ⟨_, ht⟩
    · exact .inr ⟨_, ht⟩

/-- What PUSH and CALL have in common: a fault unless the operand is legal and both guards hold. -/
theorem pushForm_cases {k : RegIdx → Answer}
    (h : (withReg 1 a s fun r => guardPush s (guardNext 2 s (k r))) = .next t) : (∃ c, FaultedFrom c s t) ∨
      ∃ r : RegIdx, a.toNat = r.val ∧ s.pc.toNat ≤ 253 ∧ (s.reg 7).toNat ≠ 0 := by
  rcases withReg_cases h with ⟨c, -, ht⟩ | ⟨r, ha, -, h⟩
  · exact .inl ⟨c, ht⟩
  rcases guardPush_cases h with ⟨-, ht⟩ | ⟨hsp, h⟩
  · exact .inl ⟨_, ht⟩
  rcases guardNext_cases h with ⟨-, ht⟩ | ⟨hp, -⟩
  · exact .inl ⟨_, ht⟩
  · exact .inr ⟨r, ha, by omega, hsp⟩

theorem exec_push_cases (h : exec (.push a) s = .next t) : (∃ c, FaultedFrom c s t) ∨
    ∃ r : RegIdx, a.toNat = r.val ∧ s.pc.toNat ≤ 253 ∧ (s.reg 7).toNat ≠ 0 := pushForm_cases h

theorem exec_call_cases (h : exec (.call a) s = .next t) : (∃ c, FaultedFrom c s t) ∨
    ∃ r : RegIdx, a.toNat = r.val ∧ s.pc.toNat ≤ 253 ∧ (s.reg 7).toNat ≠ 0 := pushForm_cases h

/-- Everything POP can do: a fault, or a write to the register its operand names and then to the stack pointer. -/
theorem exec_pop_cases (h : exec (.pop a) s = .next t) : (∃ c, FaultedFrom c s t) ∨
    ∃ (r : RegIdx) (v w : Byte) (p : Addr), a.toNat = r.val ∧ t = ((s.setReg r v).setSp w).setPc p := by
  rcases withReg_cases h with ⟨c, -, ht⟩ | ⟨r, ha, -, h⟩
  · exact .inl ⟨c, ht⟩
  rcases guardPop_cases h with ⟨-, ht⟩ | ⟨-, h⟩
  · exact .inl ⟨_, ht⟩
  rcases fallThrough_cases h with ⟨-, ht⟩ | ⟨-, ht⟩
  · exact .inl ⟨_, ht⟩
  · exact .inr ⟨r, _, _, _, ha, ht⟩

/-- Everything RET can do: a fault, or a new `pc` and stack pointer. -/
theorem exec_ret_cases (h : exec .ret s = .next t) : (∃ c, FaultedFrom c s t) ∨ ∃ w p, t = (s.setPc p).setSp w := by
  rcases guardPop_cases h with ⟨-, ht⟩ | ⟨-, h⟩
  · exact .inl ⟨_, ht⟩
  · cases h
    exact .inr ⟨_, _, rfl⟩

/-- After a fault the engine is not Running. -/
theorem engine_ne_running_of_faulted (h : ∃ c, FaultedFrom c s t) : t.engine ≠ .running := by
  obtain ⟨c, rfl⟩ := h
  simp

end Sys2Proof.Machine
end

section
/-! PROOFS of the statements about the ALU (41_alu.md, 45_alu_extension.md). -/

namespace Sys2Proof.Machine

/-- Settles O16: the ALU's result is the sum of two bytes as a byte. -/
theorem addWrapsModulo256 : Obligations.AddWrapsModulo256 := by
  unfold Obligations.AddWrapsModulo256
  intro a b ra rb s ha hb hp
  exact ⟨_, BitVec.toNat_add _ _, aluInstr_writes (op := .add) (by decide) ha hb hp rfl⟩

/-- Settles O17: the ALU's result is the product of two bytes as a byte. -/
theorem mulWrapsModulo256 : Obligations.MulWrapsModulo256 := by
  unfold Obligations.MulWrapsModulo256
  intro a b ra rb s ha hb hp
  exact ⟨_, BitVec.toNat_mul _ _, aluInstr_writes (op := .mul) (by decide) ha hb hp rfl⟩

/-- Settles O18: one law of the compare for each outcome. -/
theorem cmpSetsOneFlag : Obligations.CmpSetsOneFlag := by
  unfold Obligations.CmpSetsOneFlag
  intro a b ra rb s ha hb hp
  rw [exec_cmp_go ha hb hp]
  refine ⟨fun heq => ?_, fun hgt => ?_, fun hlt => ?_⟩
  · rw [compareFlags_of_eq heq]
  · rw [compareFlags_of_gt hgt]
  · rw [compareFlags_of_lt hlt]

/-- The difference of two bytes as a byte is the integer difference reduced modulo 256. -/
theorem toNat_sub_emod (x y : Byte) : ((x - y).toNat : Int) = ((x.toNat : Int) - y.toNat) % 256 := by
  rw [BitVec.toNat_sub]
  have hx := x.isLt
  have hy := y.isLt
  omega

/-- Settles O19: the ALU's result is the difference of two bytes as a byte. -/
theorem subWrapsModulo256 : Obligations.SubWrapsModulo256 := by
  unfold Obligations.SubWrapsModulo256
  intro a b ra rb s ha hb hp hext
  exact ⟨_, toNat_sub_emod _ _, aluInstr_writes (op := .sub) (by decide) ha hb hp hext⟩

/-- Settles O20: the ALU's results are the bitwise operations on bytes. -/
theorem bitwiseResultsPerBit : Obligations.BitwiseResultsPerBit := by
  unfold Obligations.BitwiseResultsPerBit
  intro a b ra rb s ha hb hp hext
  refine ⟨⟨_, fun k _ => ?and, aluInstr_writes (op := .and) (by decide) ha hb hp hext⟩,
    ⟨_, fun k _ => ?or, aluInstr_writes (op := .or) (by decide) ha hb hp hext⟩,
    ⟨_, fun k _ => ?xor, aluInstr_writes (op := .xor) (by decide) ha hb hp hext⟩⟩
  case and => exact BitVec.getLsbD_and
  case or => exact BitVec.getLsbD_or
  case xor => exact BitVec.getLsbD_xor

/-- Settles O21: the ALU's results are the shifts of a byte by a whole count, which are 0 from the width on. -/
theorem shiftsFillWithZeros : Obligations.ShiftsFillWithZeros := by
  unfold Obligations.ShiftsFillWithZeros
  intro a b ra rb s ha hb hp hext
  refine ⟨⟨_, ?left, fun h8 => ?leftZero, aluInstr_writes (op := .shl) (by decide) ha hb hp hext⟩,
    ⟨_, ?right, fun h8 => ?rightZero, aluInstr_writes (op := .shr) (by decide) ha hb hp hext⟩⟩
  case left => rw [aluResult, BitVec.toNat_shiftLeft, Nat.shiftLeft_eq]
  case leftZero => exact BitVec.shiftLeft_eq_zero h8
  case right => rw [aluResult, BitVec.toNat_ushiftRight, Nat.shiftRight_eq_div_pow]
  case rightZero => exact BitVec.ushiftRight_eq_zero h8

end Sys2Proof.Machine
end

section
/-! PROOFS of the statements about the stack (42_stack.md). -/

namespace Sys2Proof.Machine

variable {s : State}

/-- Settles O23: with the operand legal and both guards passed, a push in full. -/
theorem pushStoresBelowTop : Obligations.PushStoresBelowTop := by
  unfold Obligations.PushStoresBelowTop
  intro a r s ha hp hsp
  exact exec_push_go ha hp hsp

/-- Settles O24: POP's increment is of the old stack pointer, or, when register 7 is its own destination, of the popped
byte. -/
theorem popLoadsTop : Obligations.PopLoadsTop := by
  unfold Obligations.PopLoadsTop
  intro a r s ha hp
  constructor
  · intro hr hsp
    have hbase : popBase r s = s.sp := popBase_of_ne hr
    have hguard : (popBase r s).toNat ≠ 255 := by rwa [hbase]
    rw [exec_pop_go ha hp hguard, hbase]
    rfl
  · rintro rfl htop
    rw [exec_pop_go ha hp htop, setSp_setReg_sp, popBase_of_sp]
    rfl

/-- Settles O25: with the operand legal and both guards passed, the return address pushed and then the jump. -/
theorem callPushesReturnAddress : Obligations.CallPushesReturnAddress := by
  unfold Obligations.CallPushesReturnAddress
  intro a r s ha hp hsp
  exact exec_call_go ha hp hsp

/-- Below its old value the stack pointer has room for the increment (42_stack.md R78). -/
theorem pushAddr_toNat_ne_max (h : s.sp.toNat ≠ 0) : s.pushAddr.toNat ≠ 255 := by
  have hsub := pushAddr_toNat h
  have hlt := s.sp.isLt
  omega

theorem pushAddr_add_one (s : State) : s.pushAddr + 1 = s.sp := BitVec.sub_add_cancel _ _

/-- A state `u` that agrees with the one a push left on the stack pointer and on the cell it addresses finds the pushed
byte. -/
theorem top_after_push {t u : State} {v : Byte} {p : Addr} (hm : s.mem.wf = true)
    (ht : t = ((s.setSp s.pushAddr).writeMem s.pushAddr v).setPc p) (hsp : u.reg 7 = t.reg 7)
    (hcell : u.readMem (t.reg 7) = t.readMem (t.reg 7)) : u.sp = s.pushAddr ∧ u.readMem u.sp = v := by
  have htop : t.reg 7 = s.pushAddr := ht ▸ s.sp_setSp s.pushAddr
  have hwritten : t.readMem s.pushAddr = v := by
    rw [ht, State.readMem_setPc, State.readMem_writeMem (s := s.setSp s.pushAddr) hm, if_pos rfl]
  have hutop : u.sp = s.pushAddr := hsp.trans htop
  exact ⟨hutop, by rw [hutop, ← hwritten, ← htop, hcell]⟩

/-- Settles O26: PUSH left the register's value in the cell that the stack pointer addresses, and POP reads that cell. -/
theorem popUndoesPush : Obligations.PopUndoesPush := by
  unfold Obligations.PopUndoesPush
  intro a r s t u ha hr hm _ hpush hrunning husp hucell hup
  obtain hfault | ⟨-, -, hp, hsp⟩ := exec_push_cases hpush
  · exact absurd hrunning (engine_ne_running_of_faulted hfault)
  rw [exec_push_go ha hp hsp, if_neg hr] at hpush
  obtain ⟨htop, hcell⟩ := top_after_push hm (Host.Outcome.next.inj hpush).symm husp hucell
  have hbase : popBase r u = s.pushAddr := (popBase_of_ne hr).trans htop
  have hguard : (popBase r u).toNat ≠ 255 := by
    rw [hbase]
    exact pushAddr_toNat_ne_max hsp
  refine ⟨_, exec_pop_go ha hup hguard, ?register, ?stackPointer, rfl⟩
  case register => rw [State.reg_setPc, State.reg_setSp, if_neg hr, State.reg_setReg_same, hcell]
  case stackPointer =>
    rw [State.reg_setPc, State.reg_setSp, if_pos rfl, hbase]
    exact pushAddr_add_one s

/-- Settles O27: CALL left the address after itself in the cell that the stack pointer addresses, and RET reads that cell. -/
theorem retUndoesCall : Obligations.RetUndoesCall := by
  unfold Obligations.RetUndoesCall
  intro a r s t u ha hm _ hcall hrunning husp hucell
  obtain hfault | ⟨-, -, hp, hsp⟩ := exec_call_cases hcall
  · exact absurd hrunning (engine_ne_running_of_faulted hfault)
  rw [exec_call_go ha hp hsp] at hcall
  have ht := (Host.Outcome.next.inj hcall).symm
  obtain ⟨htop, hcell⟩ := top_after_push hm ht husp hucell
  have hguard : u.sp.toNat ≠ 255 := by
    rw [htop]
    exact pushAddr_toNat_ne_max hsp
  refine ⟨fun hr => by rw [ht, State.setPc_pc, if_neg hr], _, exec_ret_go hguard, ?returnAddress, ?stackPointer⟩
  case returnAddress =>
    have hreturn : u.readMem u.sp = s.pcPlus 2 := hcell.trans (s.pcPlus_eq 2).symm
    rw [State.setSp_pc, State.setPc_pc, hreturn, State.pcPlus_toNat (Nat.add_le_add_right hp 2)]
  case stackPointer =>
    rw [State.reg_setSp, if_pos rfl, htop]
    exact pushAddr_add_one s

end Sys2Proof.Machine
end

section
/-! SUPPORT. Every instruction's checks in the order of 60_exceptions.md R111: one lemma for each fault, over all nineteen, and
one for completion. -/

namespace Sys2Proof.Machine

variable {i : Instr} {op : AluOp} {a b : Byte} {s : State}

theorem wellFormed_iff : i.wellFormed = true ↔ ∀ r ∈ i.regOperands, r.toNat ≤ 7 := by
  simp [Instr.wellFormed, regOperandOk]

theorem not_wellFormed_iff : i.wellFormed = false ↔ ∃ r ∈ i.regOperands, 7 < r.toNat := by
  simp [Instr.wellFormed, regOperandOk]

/-- Phase 3 comes first (40_dispatcher.md R63). -/
theorem exec_operands_past_end (h : 255 < s.pc.toNat + i.operandCount) : exec i s = raise .pcRangeFault s := by
  cases i with
  | hlt | ret => exact absurd s.pc.isLt (Nat.not_lt.mpr h)
  | ldi a b | prn a | push a | pop a | call a | jeq a | jmp a | jne a => exact withReg_pcRange h
  | mul a b | add a b | cmp a b | sub a b | and a b | or a b | xor a b | shl a b | shr a b => exact withRegs_pcRange h

/-- Phase 4 comes before the instruction's own pseudocode (40_dispatcher.md R64). -/
theorem exec_illegal_register (hp : s.pc.toNat + i.operandCount ≤ 255) (h : i.wellFormed = false) :
    exec i s = raise .regIndexFault s := by
  obtain ⟨r, hr, h7⟩ := not_wellFormed_iff.mp h
  cases i with
  | hlt | ret => cases hr
  | ldi a b | prn a | push a | pop a | call a | jeq a | jmp a | jne a =>
    cases List.mem_singleton.mp hr
    exact withReg_regIndex hp h7
  | mul a b | add a b | cmp a b | sub a b | and a b | or a b | xor a b | shl a b | shr a b =>
    have h7 : 7 < a.toNat ∨ 7 < b.toNat := by
      rcases List.mem_pair.mp hr with rfl | rfl
      · exact .inl h7
      · exact .inr h7
    exact withRegs_regIndex hp h7

/-- The only operand of an instruction whose register operands are legal. -/
theorem legal_single (h : ∀ r ∈ [a], r.toNat ≤ 7) : a.toNat ≤ 7 := h a (List.mem_singleton_self a)

theorem legal_fst (h : ∀ r ∈ [a, b], r.toNat ≤ 7) : a.toNat ≤ 7 := h a (by simp)

theorem legal_snd (h : ∀ r ∈ [a, b], r.toNat ≤ 7) : b.toNat ≤ 7 := h b (by simp)

/-- The byte POP increments, as the stack guard of `stackFaults` names it. -/
theorem popBase_eq {r : RegIdx} (ha : a.toNat = r.val) :
    popBase r s = if a.toNat = 7 then s.readMem s.sp else s.sp := by
  have h7 : r = Config.spIndex ↔ a.toNat = 7 := by
    rw [ha, Fin.ext_iff]
    rfl
  simp only [popBase, h7]

/-- A comparison of bytes, as `stackFaults` and `successorFaults` write one, is a comparison of their values. -/
theorem toNat_eq_of_beq {v w : Byte} (h : (v == w) = true) : v.toNat = w.toNat := congrArg BitVec.toNat (beq_iff_eq.mp h)

theorem toNat_ne_of_beq {v w : Byte} (h : (v == w) = false) : v.toNat ≠ w.toNat := fun e =>
  beq_eq_false_iff_ne.mp h (BitVec.eq_of_toNat_eq e)

/-- The stack guard comes before the check of the successor (60_exceptions.md R111). -/
theorem exec_stack_guard (hp : s.pc.toNat + i.operandCount ≤ 255) (hwf : i.wellFormed = true)
    (h : stackFaults i s = true) : exec i s = raise .stackFault s := by
  rw [wellFormed_iff] at hwf
  cases i with
  | push a =>
    obtain ⟨r, hr⟩ := legal_operand (legal_single hwf)
    rw [exec_push_guard hr (Nat.le_of_succ_le_succ hp), guardPush_raise (toNat_eq_of_beq h)]
  | call a =>
    obtain ⟨r, hr⟩ := legal_operand (legal_single hwf)
    rw [exec_call_guard hr (Nat.le_of_succ_le_succ hp), guardPush_raise (toNat_eq_of_beq h)]
  | pop a =>
    obtain ⟨r, hr⟩ := legal_operand (legal_single hwf)
    have hbase : (popBase r s).toNat = 255 := by
      rw [popBase_eq hr]
      exact toNat_eq_of_beq h
    rw [exec_pop_guard hr (Nat.le_of_succ_le_succ hp), guardPop_raise hbase]
  | ret => exact exec_ret_raise (toNat_eq_of_beq h)
  | hlt | ldi a b | prn a | jeq a | jmp a | jne a | mul a b | add a b | cmp a b | sub a b | and a b | or a b | xor a b
  | shl a b | shr a b => cases h

/-- At 254 the byte after an operand byte is past the end of memory. -/
theorem successor_past_end (h : (s.pc == 254) = true) : 255 < s.pc.toNat + 2 := by
  rw [toNat_eq_of_beq h]
  decide

/-- The check of the successor or return address comes last (60_exceptions.md R111). -/
theorem exec_no_successor (hp : s.pc.toNat + i.operandCount ≤ 255) (hwf : i.wellFormed = true)
    (hstack : stackFaults i s = false) (h : successorFaults i s = true) : exec i s = raise .pcRangeFault s := by
  rw [wellFormed_iff] at hwf
  cases i with
  | hlt | ret | jmp a => cases h
  | ldi a b =>
    exact regEffectInstr_noSuccessor (legal_single hwf) (congrArg (· + 2) (toNat_eq_of_beq h))
  | prn a =>
    exact regEffectInstr_noSuccessor (legal_single hwf) (congrArg (· + 1) (toNat_eq_of_beq h))
  | push a =>
    obtain ⟨r, hr⟩ := legal_operand (legal_single hwf)
    rw [exec_push_guard hr (Nat.le_of_succ_le_succ hp), guardPush_go (toNat_ne_of_beq hstack),
      fallThrough_raise (successor_past_end h)]
  | pop a =>
    obtain ⟨r, hr⟩ := legal_operand (legal_single hwf)
    have hbase : (popBase r s).toNat ≠ 255 := by
      rw [popBase_eq hr]
      exact toNat_ne_of_beq hstack
    rw [exec_pop_guard hr (Nat.le_of_succ_le_succ hp), guardPop_go hbase, fallThrough_raise (successor_past_end h)]
  | call a =>
    obtain ⟨r, hr⟩ := legal_operand (legal_single hwf)
    rw [exec_call_guard hr (Nat.le_of_succ_le_succ hp), guardPush_go (toNat_ne_of_beq hstack),
      guardNext_raise (successor_past_end h)]
  | jeq a =>
    obtain ⟨hpc, he⟩ := Bool.and_eq_true_iff.mp h
    rw [exec_jeq]
    exact branchInstr_untaken_raise (legal_single hwf) (by simpa using he) (toNat_eq_of_beq hpc)
  | jne a =>
    obtain ⟨hpc, he⟩ := Bool.and_eq_true_iff.mp h
    rw [exec_jne]
    exact branchInstr_untaken_raise (legal_single hwf) (by simpa using he) (toNat_eq_of_beq hpc)
  | mul a b => exact aluInstr_noSuccessor (op := .mul) (legal_fst hwf) (legal_snd hwf) (toNat_eq_of_beq h)
  | add a b => exact aluInstr_noSuccessor (op := .add) (legal_fst hwf) (legal_snd hwf) (toNat_eq_of_beq h)
  | cmp a b => exact aluInstr_noSuccessor (op := .cmp) (legal_fst hwf) (legal_snd hwf) (toNat_eq_of_beq h)
  | sub a b | and a b | or a b | xor a b | shl a b | shr a b =>
    exact aluInstr_noSuccessor (legal_fst hwf) (legal_snd hwf) (toNat_eq_of_beq h)

/-- The answer is a next state with this engine and `pc`, and the record is as it was in `s`. -/
def CompletesWith (e : Engine) (p : Addr) (s : State) (answer : Answer) : Prop :=
  ∃ t, answer = .next t ∧ t.fault = s.fault ∧ t.pc = p ∧ t.engine = e

theorem aluEffect_fault (ra rb : RegIdx) : (aluEffect op ra rb s).fault = s.fault := by
  cases op <;> rfl

theorem aluEffect_engine (ra rb : RegIdx) : (aluEffect op ra rb s).engine = s.engine := by
  cases op <;> rfl

theorem aluInstr_completes (ha : a.toNat ≤ 7) (hb : b.toNat ≤ 7) (hp : s.pc.toNat ≤ 252)
    (hs : aluSupports s.extAlu op = true) : CompletesWith s.engine (s.pc + 3) s (aluInstr op a b s) := by
  obtain ⟨ra, hra⟩ := legal_operand ha
  obtain ⟨rb, hrb⟩ := legal_operand hb
  exact ⟨_, aluInstr_go hra hrb (Nat.add_le_add_right hp 3) hs, aluEffect_fault ra rb, s.pcPlus_eq 3, aluEffect_engine ra rb⟩

theorem targetOf_eq {r : RegIdx} (ha : a.toNat = r.val) : targetOf a s = s.reg r := by
  have hr : (⟨a.toNat % 8, Nat.mod_lt _ (by decide)⟩ : RegIdx) = r := Fin.ext (by rw [ha]; exact Nat.mod_eq_of_lt r.isLt)
  rw [targetOf, hr]

theorem branchInstr_completes {c : Bool} (ha : a.toNat ≤ 7) (hp : s.pc.toNat ≤ 254) (hnext : c = false → s.pc.toNat ≤ 253) :
    CompletesWith s.engine (if c then targetOf a s else s.pc + 2) s (branchInstr c a s) := by
  obtain ⟨r, hr⟩ := legal_operand ha
  cases c with
  | true => exact ⟨_, branchInstr_taken hr rfl hp, rfl, (targetOf_eq hr).symm, rfl⟩
  | false => exact ⟨_, branchInstr_untaken_go ha rfl (hnext rfl), rfl, rfl, rfl⟩

/-- An instruction whose one operand byte fits has a successor unless `pc` is the address `successorFaults` names. -/
theorem pc_le_of_one_operand (hp : s.pc.toNat + 1 ≤ 255) (h : (s.pc == 254) = false) : s.pc.toNat ≤ 253 := by
  have hne : s.pc.toNat ≠ 254 := toNat_ne_of_beq h
  omega

/-- The same with two operand bytes. -/
theorem pc_le_of_two_operands (hp : s.pc.toNat + 2 ≤ 255) (h : (s.pc == 253) = false) : s.pc.toNat ≤ 252 := by
  have hne : s.pc.toNat ≠ 253 := toNat_ne_of_beq h
  omega

/-- A registered instruction that meets none of the four fault conditions completes, and `pc` gets its value of the table of
10_state.md R16. -/
theorem exec_completes (hp : s.pc.toNat + i.operandCount ≤ 255) (hwf : i.wellFormed = true)
    (hstack : stackFaults i s = false) (hnext : successorFaults i s = false) (hreg : i.registered s.extAlu = true) :
    CompletesWith (if i = .hlt then .halted else s.engine) (newPc i s) s (exec i s) := by
  rw [wellFormed_iff] at hwf
  cases i with
  | hlt => exact ⟨_, exec_hlt s, rfl, rfl, rfl⟩
  | ret => exact ⟨_, exec_ret_go (toNat_ne_of_beq hstack), rfl, rfl, rfl⟩
  | ldi a b =>
    obtain ⟨r, hr⟩ := legal_operand (legal_single hwf)
    have hpc := pc_le_of_two_operands hp hnext
    exact ⟨_, regEffectInstr_go hr (Nat.add_le_add_right hpc 3), rfl, rfl, rfl⟩
  | prn a =>
    obtain ⟨r, hr⟩ := legal_operand (legal_single hwf)
    have hpc := pc_le_of_one_operand hp hnext
    exact ⟨_, regEffectInstr_go hr (Nat.add_le_add_right hpc 2), rfl, rfl, rfl⟩
  | push a =>
    obtain ⟨r, hr⟩ := legal_operand (legal_single hwf)
    have hpc := pc_le_of_one_operand hp hnext
    exact ⟨_, exec_push_go hr hpc (toNat_ne_of_beq hstack), rfl, rfl, rfl⟩
  | pop a =>
    obtain ⟨r, hr⟩ := legal_operand (legal_single hwf)
    have hpc := pc_le_of_one_operand hp hnext
    have hbase : (popBase r s).toNat ≠ 255 := by
      rw [popBase_eq hr]
      exact toNat_ne_of_beq hstack
    exact ⟨_, exec_pop_go hr hpc hbase, rfl, rfl, rfl⟩
  | call a =>
    obtain ⟨r, hr⟩ := legal_operand (legal_single hwf)
    have hpc := pc_le_of_one_operand hp hnext
    have htarget : (if r = 7 then s.pushAddr else s.reg r) = newPc (.call a) s := by
      have h7 : r = 7 ↔ a.toNat = 7 := by
        rw [hr, Fin.ext_iff]
        rfl
      simp only [newPc, targetOf_eq hr, h7]
      rfl
    exact ⟨_, exec_call_go hr hpc (toNat_ne_of_beq hstack), rfl, htarget, rfl⟩
  | jmp a => exact branchInstr_completes (c := true) (legal_single hwf) (Nat.le_of_add_le_add_right hp) (by simp)
  | jeq a =>
    have hpc : s.pc.toNat ≤ 254 := Nat.le_of_add_le_add_right hp
    refine branchInstr_completes (legal_single hwf) hpc fun he => ?_
    rw [successorFaults, he, Bool.not_false, Bool.and_true] at hnext
    exact pc_le_of_one_operand hp hnext
  | jne a =>
    have hpc : s.pc.toNat ≤ 254 := Nat.le_of_add_le_add_right hp
    have htarget : newPc (.jne a) s = if !s.flags.e then targetOf a s else s.pc + 2 := by
      cases he : s.flags.e <;> simp [newPc, he]
    rw [htarget]
    refine branchInstr_completes (legal_single hwf) hpc fun he => ?_
    rw [successorFaults, (Bool.not_eq_false' ..).mp he, Bool.and_true] at hnext
    exact pc_le_of_one_operand hp hnext
  | mul a b =>
    exact aluInstr_completes (op := .mul) (legal_fst hwf) (legal_snd hwf) (pc_le_of_two_operands hp hnext) rfl
  | add a b =>
    exact aluInstr_completes (op := .add) (legal_fst hwf) (legal_snd hwf) (pc_le_of_two_operands hp hnext) rfl
  | cmp a b =>
    exact aluInstr_completes (op := .cmp) (legal_fst hwf) (legal_snd hwf) (pc_le_of_two_operands hp hnext) rfl
  | sub a b | and a b | or a b | xor a b | shl a b | shr a b =>
    have hsupported := registered_iff.mp hreg rfl
    exact aluInstr_completes (legal_fst hwf) (legal_snd hwf) (pc_le_of_two_operands hp hnext) hsupported

end Sys2Proof.Machine
end

section
/-! PROOFS of the statements about faults (60_exceptions.md). -/

namespace Sys2Proof.Machine

variable {a : Byte} {s t : State}

/-- Settles O28: one lemma for each of the four checks, in their order, and one for an instruction that passes them all. -/
theorem faultPriorityAndCompletion : Obligations.FaultPriorityAndCompletion := by
  unfold Obligations.FaultPriorityAndCompletion
  intro i s
  exact ⟨exec_operands_past_end, fun hp => ⟨exec_illegal_register hp, fun hwf => ⟨exec_stack_guard hp hwf, fun hstack =>
    ⟨exec_no_successor hp hwf hstack, exec_completes hp hwf hstack⟩⟩⟩⟩

/-- Settles O29: the stack guard of PUSH, CALL, RET and POP at the two ends of memory. -/
theorem stackFaultAtMemoryEnds : Obligations.StackFaultAtMemoryEnds := by
  unfold Obligations.StackFaultAtMemoryEnds
  intro a r s ha hp
  refine ⟨fun hsp => ⟨?push, ?call⟩, fun hsp => ?ret, fun hr hsp => ?pop, fun hr htop => ?popSp⟩
  case push => rw [exec_push_guard ha hp, guardPush_raise (congrArg BitVec.toNat hsp)]; rfl
  case call => rw [exec_call_guard ha hp, guardPush_raise (congrArg BitVec.toNat hsp)]; rfl
  case ret => exact exec_ret_raise (congrArg BitVec.toNat hsp)
  case pop =>
    have hbase : (popBase r s).toNat = 255 := congrArg BitVec.toNat ((popBase_of_ne hr).trans hsp)
    rw [exec_pop_guard ha hp, guardPop_raise hbase]
    rfl
  case popSp =>
    have hbase : (popBase r s).toNat = 255 := congrArg BitVec.toNat ((if_pos hr).trans htop)
    rw [exec_pop_guard ha hp, guardPop_raise hbase]
    rfl

/-- Settles O30: the fault entry is a record update of `engine` and `fault`. -/
theorem faultEntryIsPrecise : Obligations.FaultEntryIsPrecise := by
  unfold Obligations.FaultEntryIsPrecise
  intro c s
  refine ⟨rfl, fun t ht => ?_⟩
  rw [raise_next ht]
  exact ⟨s.enterFault_mem c, s.enterFault_regs c, s.enterFault_pc c, s.enterFault_flags c, s.enterFault_out c,
    s.enterFault_extAlu c⟩

/-- Settles O31: a step takes no AluError because a decoded instruction is registered; without `EXT_ALU` the ALU supports none
of the six extension operations. -/
theorem aluErrorUnreachable : Obligations.AluErrorUnreachable := by
  unfold Obligations.AluErrorUnreachable
  constructor
  · intro s t r hstep hr hnew
    cases step_stepCase hstep with
    | fault c hc ht =>
      rw [ht, State.enterFault_fault] at hr
      cases hr
      exact hc
    | halt _ ht => exact absurd (ht ▸ s.halt_fault) hnew
    | done i _ heffect => exact absurd heffect.fault_eq hnew
  · intro a b ra rb s ha hb hp hext i hi
    simp only [List.mem_cons, List.not_mem_nil, or_false] at hi
    rcases hi with rfl | rfl | rfl | rfl | rfl | rfl
    all_goals exact aluInstr_aluError ha hb hp hext

end Sys2Proof.Machine
end

section
/-! PROOFS of the frames: what each class of instructions leaves unchanged (section 2 of 41_alu.md, 42_stack.md, 43_branch.md,
44_data_movement.md and 45_alu_extension.md). -/

namespace Sys2Proof.Machine

variable {i : Instr} {a b : Byte} {s t : State}

/-- Everything an instruction that writes one register can do: a fault, or a write to the register its first operand names. -/
theorem exec_registerWrite_cases
    (hi : i ∈ [.ldi a b, .add a b, .mul a b, .sub a b, .and a b, .or a b, .xor a b, .shl a b, .shr a b])
    (h : exec i s = .next t) : (∃ c, FaultedFrom c s t) ∨
      ∃ (r : RegIdx) (v : Byte) (p : Addr), a.toNat = r.val ∧ t = (s.setReg r v).setPc p := by
  simp only [List.mem_cons, List.not_mem_nil, or_false] at hi
  rcases hi with rfl | rfl | rfl | rfl | rfl | rfl | rfl | rfl | rfl
  · rcases regEffectInstr_cases (exec_ldi a b s ▸ h) with hfault | ⟨r, ha, ht⟩
    · exact .inl hfault
    · exact .inr ⟨r, _, _, ha, ht⟩
  · exact aluInstr_write_cases (op := .add) (by decide) h
  · exact aluInstr_write_cases (op := .mul) (by decide) h
  · exact aluInstr_write_cases (op := .sub) (by decide) h
  · exact aluInstr_write_cases (op := .and) (by decide) h
  · exact aluInstr_write_cases (op := .or) (by decide) h
  · exact aluInstr_write_cases (op := .xor) (by decide) h
  · exact aluInstr_write_cases (op := .shl) (by decide) h
  · exact aluInstr_write_cases (op := .shr) (by decide) h

/-- Settles O32: a fault changes neither registers nor memory, and a write to one register keeps the others. -/
theorem registerWriteFrame : Obligations.RegisterWriteFrame := by
  unfold Obligations.RegisterWriteFrame
  intro a b i s t hi h
  obtain ⟨c, rfl⟩ | ⟨r, v, p, ha, rfl⟩ := exec_registerWrite_cases hi h
  · exact ⟨fun r _ => rfl, fun m => rfl, rfl, rfl, rfl, .inr ⟨c, rfl⟩⟩
  · refine ⟨fun r' hr' => ?_, fun m => rfl, rfl, rfl, rfl, .inl ⟨rfl, rfl⟩⟩
    have hne : r' ≠ r := fun e => hr' (by rw [e, ha])
    rw [State.reg_setPc, State.reg_setReg_other s v hne]

/-- Everything an instruction that writes no register and no memory can do: a fault, HLT's halt, CMP's flags, PRN's output, or
a new `pc` alone. -/
inductive NoRegisterWrite (a b : Byte) (i : Instr) (s t : State) : Prop
  | fault (h : ∃ c, FaultedFrom c s t)
  | halt (hi : i = .hlt) (ht : t = s.halt)
  | compare (f : Flags) (p : Addr) (hi : i = .cmp a b) (ht : t = (s.setFlags f).setPc p)
  | emit (v : Byte) (p : Addr) (hi : i = .prn a) (ht : t = (s.emit v).setPc p)
  | jump (p : Addr) (ht : t = s.setPc p)

theorem branchInstr_noRegisterWrite {c : Bool} (h : branchInstr c a s = .next t) : NoRegisterWrite a b i s t := by
  obtain hfault | ⟨p, ht⟩ := branchInstr_cases h
  · exact .fault hfault
  · exact .jump p ht

theorem exec_noRegisterWrite_cases (hi : i ∈ [.cmp a b, .prn a, .jmp a, .jeq a, .jne a, .hlt]) (h : exec i s = .next t) :
    NoRegisterWrite a b i s t := by
  simp only [List.mem_cons, List.not_mem_nil, or_false] at hi
  rcases hi with rfl | rfl | rfl | rfl | rfl | rfl
  · obtain hfault | ⟨ra, rb, -, -, ht⟩ := exec_cmp_cases h
    · exact .fault hfault
    · exact .compare _ _ rfl ht
  · obtain hfault | ⟨r, -, ht⟩ := regEffectInstr_cases (exec_prn a s ▸ h)
    · exact .fault hfault
    · exact .emit _ _ rfl ht
  · exact branchInstr_noRegisterWrite (exec_jmp a s ▸ h)
  · exact branchInstr_noRegisterWrite (exec_jeq a s ▸ h)
  · exact branchInstr_noRegisterWrite (exec_jne a s ▸ h)
  · rw [exec_hlt] at h
    exact .halt rfl (Host.Outcome.next.inj h).symm

/-- Settles O33: CMP, PRN and HLT each write the one component that is theirs, the branches only `pc`. -/
theorem noRegisterWriteFrame : Obligations.NoRegisterWriteFrame := by
  unfold Obligations.NoRegisterWriteFrame
  intro a b i s t hi h
  cases exec_noRegisterWrite_cases hi h with
  | fault h =>
    obtain ⟨c, rfl⟩ := h
    exact ⟨fun r => rfl, fun m => rfl, fun _ => rfl, fun _ => rfl, rfl, .inr (.inr ⟨c, rfl⟩)⟩
  | halt hi ht =>
    subst ht
    exact ⟨fun r => rfl, fun m => rfl, fun _ => rfl, fun _ => rfl, rfl, .inr (.inl ⟨hi, rfl, rfl⟩)⟩
  | compare f p hi ht =>
    subst ht
    exact ⟨fun r => rfl, fun m => rfl, fun hne => absurd hi hne, fun _ => rfl, rfl, .inl ⟨rfl, rfl⟩⟩
  | emit v p hi ht =>
    subst ht
    exact ⟨fun r => rfl, fun m => rfl, fun _ => rfl, fun hne => absurd hi hne, rfl, .inl ⟨rfl, rfl⟩⟩
  | jump p ht =>
    subst ht
    exact ⟨fun r => rfl, fun m => rfl, fun _ => rfl, fun _ => rfl, rfl, .inl ⟨rfl, rfl⟩⟩

/-- Everything PUSH and CALL can do: a fault, or one push and a new `pc`. -/
theorem exec_stackStore_cases (hi : i ∈ [.push a, .call a]) (h : exec i s = .next t) : (∃ c, FaultedFrom c s t) ∨
    ∃ v p, t = ((s.setSp s.pushAddr).writeMem s.pushAddr v).setPc p := by
  rcases List.mem_pair.mp hi with rfl | rfl
  · obtain hfault | ⟨r, ha, hp, hsp⟩ := exec_push_cases h
    · exact .inl hfault
    · rw [exec_push_go ha hp hsp] at h
      exact .inr ⟨_, _, (Host.Outcome.next.inj h).symm⟩
  · obtain hfault | ⟨r, ha, hp, hsp⟩ := exec_call_cases h
    · exact .inl hfault
    · rw [exec_call_go ha hp hsp] at h
      exact .inr ⟨_, _, (Host.Outcome.next.inj h).symm⟩

/-- Settles O34: a push writes the cell at `State.pushAddr` and the stack pointer. -/
theorem stackStoreFrame : Obligations.StackStoreFrame := by
  unfold Obligations.StackStoreFrame
  intro a i s t hi hm h
  obtain ⟨c, rfl⟩ | ⟨v, p, rfl⟩ := exec_stackStore_cases hi h
  · exact ⟨fun r _ => rfl, fun p _ m _ => rfl, rfl, rfl, rfl, .inr ⟨c, rfl⟩⟩
  · refine ⟨fun r hr => ?register, ?memory, rfl, rfl, rfl, .inl ⟨rfl, rfl⟩⟩
    case register => rw [State.reg_setPc, State.reg_writeMem, State.reg_setSp, if_neg hr]
    case memory =>
      rintro _ rfl m hne
      rw [State.readMem_setPc, State.readMem_writeMem (s := s.setSp s.pushAddr) hm, if_neg hne, State.readMem_setSp]

/-- Settles O35: POP writes its register and the stack pointer, RET the stack pointer; neither writes memory. -/
theorem stackLoadFrame : Obligations.StackLoadFrame := by
  unfold Obligations.StackLoadFrame
  intro a i s t hi h
  rcases List.mem_pair.mp hi with rfl | rfl
  · obtain ⟨c, rfl⟩ | ⟨r, v, w, p, ha, rfl⟩ := exec_pop_cases h
    · exact ⟨fun r _ _ => rfl, fun m => rfl, rfl, rfl, rfl, .inr ⟨c, rfl⟩⟩
    · refine ⟨fun r' hr' hdest => ?_, fun m => rfl, rfl, rfl, rfl, .inl ⟨rfl, rfl⟩⟩
      have hne : r' ≠ r := fun e => hdest rfl (by rw [e, ha])
      rw [State.reg_setPc, State.reg_setSp, if_neg hr', State.reg_setReg_other s v hne]
  · obtain ⟨c, rfl⟩ | ⟨w, p, rfl⟩ := exec_ret_cases h
    · exact ⟨fun r _ _ => rfl, fun m => rfl, rfl, rfl, rfl, .inr ⟨c, rfl⟩⟩
    · refine ⟨fun r hr _ => ?_, fun m => rfl, rfl, rfl, rfl, .inl ⟨rfl, rfl⟩⟩
      rw [State.reg_setSp, if_neg hr, State.reg_setPc]

end Sys2Proof.Machine
end

section
/-! PROOFS of the statements about flags and output over runs (10_state.md, 41_alu.md). -/

namespace Sys2Proof.Machine

variable {i : Instr} {a : Byte} {s t : State}

/-- Only CMP has an effect on the flags (41_alu.md R75). -/
theorem Effect.flags_eq (h : Effect i s t) (hi : ∀ a b, i ≠ .cmp a b) : t.flags = s.flags := by
  cases h with
  | compare a b ra rb p hcmp => exact absurd hcmp (hi a b)
  | setReg r v p => rfl
  | emit a r p hprn ha => rfl
  | jump p => rfl
  | push v p hsp => rfl
  | pop r v w p => rfl
  | ret w p => rfl

theorem exec_flags_of_not_cmp (h : exec i s = .next t) (hi : ∀ a b, i ≠ .cmp a b) : t.flags = s.flags := by
  cases exec_cases h with
  | fault c _ ht => exact ht ▸ s.enterFault_flags c
  | halt _ ht => exact ht ▸ s.halt_flags
  | done heffect => exact heffect.flags_eq hi

/-- Every flag that is 1 in `f` is 1 in `f'`. -/
def Flags.Sub (f f' : Flags) : Prop :=
  (f.e = true → f'.e = true) ∧ (f.l = true → f'.l = true) ∧ (f.g = true → f'.g = true)

theorem Flags.Sub.refl (f : Flags) : f.Sub f := ⟨id, id, id⟩

theorem Flags.Sub.trans {f f' f'' : Flags} (h : f.Sub f') (h' : f'.Sub f'') : f.Sub f'' := by
  obtain ⟨he, hl, hg⟩ := h
  obtain ⟨he', hl', hg'⟩ := h'
  exact ⟨he' ∘ he, hl' ∘ hl, hg' ∘ hg⟩

/-- The compare only ever writes 1 (41_alu.md R75). -/
theorem Flags.sub_compareFlags (x y : Byte) (f : Flags) : f.Sub (compareFlags x y f) := by
  unfold compareFlags
  split
  · exact ⟨fun _ => rfl, id, id⟩
  · split
    · exact ⟨id, id, fun _ => rfl⟩
    · exact ⟨id, fun _ => rfl, id⟩

theorem Effect.flags_sub (h : Effect i s t) : s.flags.Sub t.flags := by
  cases h with
  | compare a b ra rb p hcmp => exact Flags.sub_compareFlags _ _ s.flags
  | setReg r v p => exact .refl _
  | emit a r p hprn ha => exact .refl _
  | jump p => exact .refl _
  | push v p hsp => exact .refl _
  | pop r v w p => exact .refl _
  | ret w p => exact .refl _

theorem step_flags_sub (h : step s = .next t) : s.flags.Sub t.flags := by
  cases step_stepCase h with
  | fault c _ ht => exact ht ▸ .refl _
  | halt _ ht => exact ht ▸ .refl _
  | done i _ heffect => exact heffect.flags_sub

theorem run_flags_sub {k : Nat} (h : run k s = .next t) : s.flags.Sub t.flags :=
  run_invariant (P := fun u => s.flags.Sub u.flags) (fun _ _ hu hstep => hu.trans (step_flags_sub hstep)) k s t (.refl _) h

/-- Settles O36: CMP alone writes flags, and only 1, so over a run, by induction on its length, a flag that is 1 stays 1; the
branches are then those of a state in which `E` is 1. -/
theorem flagsAreSticky : Obligations.FlagsAreSticky := by
  unfold Obligations.FlagsAreSticky
  refine ⟨rfl, fun i s t => exec_flags_of_not_cmp, fun a b s t h hrunning => ?compare, fun k s t h => run_flags_sub h,
    fun k a r s t h he ha => ?branches⟩
  case compare =>
    obtain ⟨c, rfl⟩ | ⟨ra, rb, ha, hb, rfl⟩ := exec_cmp_cases h
    · exact ⟨fun _ => rfl, fun hrun => absurd hrun (by simp)⟩
    · exact ⟨fun hstop => absurd hrunning hstop, fun _ => ⟨ra, rb, ha, hb, fun heq => compareFlags_of_eq heq _,
        fun hgt => compareFlags_of_gt hgt _, fun hlt => compareFlags_of_lt hlt _⟩⟩
  case branches =>
    obtain ⟨hkeepE, -, -⟩ := run_flags_sub h
    have het : t.flags.e = true := hkeepE he
    rw [exec_jeq, exec_jne, het]
    exact ⟨branchInstr_taken ha rfl, branchInstr_untaken_go (ha ▸ Nat.le_of_lt_succ r.isLt) rfl⟩

/-- Only PRN has an effect on the output (10_state.md R21). -/
theorem Effect.out_eq (h : Effect i s t) (hi : ∀ a, i ≠ .prn a) : t.out = s.out := by
  cases h with
  | emit a r p hprn ha => exact absurd hprn (hi a)
  | setReg r v p => rfl
  | compare a b ra rb p hcmp => rfl
  | jump p => rfl
  | push v p hsp => rfl
  | pop r v w p => rfl
  | ret w p => rfl

theorem prnPulse_of_out_eq (h : t.out = s.out) : prnPulse s t = none := by
  simp [prnPulse, h]

/-- The step of a decoded PRN emits its register's value and stays Running, or takes a fault. -/
theorem step_of_prn (hstep : step s = .next t) (hi : fetchDecode s = .ok (.prn a)) : (∃ c, FaultedFrom c s t) ∨
    ∃ r : RegIdx, a.toNat = r.val ∧ t.engine = .running ∧ t.out = s.out ++ [s.reg r] := by
  obtain ⟨hrunning, -⟩ := step_cases hstep
  rw [step_of_fetchDecode hrunning hi, exec_prn] at hstep
  obtain hfault | ⟨r, ha, rfl⟩ := regEffectInstr_cases hstep
  · exact .inl hfault
  · exact .inr ⟨r, ha, hrunning, rfl⟩

theorem step_out_of_not_prn (hstep : step s = .next t) (hi : ∀ a, fetchDecode s ≠ .ok (.prn a)) : t.out = s.out := by
  cases step_stepCase hstep with
  | fault c _ ht => exact ht ▸ s.enterFault_out c
  | halt _ ht => exact ht ▸ s.halt_out
  | done i hdecode heffect => exact heffect.out_eq fun a e => hi a (e ▸ hdecode)

/-- Settles O37: a decoded PRN that completes appends one value; a fault and every other instruction append none. -/
theorem onlyPrnEmits : Obligations.OnlyPrnEmits := by
  unfold Obligations.OnlyPrnEmits
  intro s t hstep
  by_cases hprn : ∃ a, fetchDecode s = .ok (.prn a)
  · obtain ⟨a, hi⟩ := hprn
    obtain ⟨c, rfl⟩ | ⟨r, ha, hrunning, hout⟩ := step_of_prn hstep hi
    · exact .inl ⟨rfl, prnPulse_of_out_eq rfl, fun _ _ => ⟨rfl, by simp⟩⟩
    · exact .inr ⟨a, r, ha, hi, hrunning, hout, prnPulse_of_out_append hout⟩
  · have hnot : ∀ a, fetchDecode s ≠ .ok (.prn a) := not_exists.mp hprn
    have hout := step_out_of_not_prn hstep hnot
    exact .inl ⟨hout, prnPulse_of_out_eq hout, fun a hi => absurd hi (hnot a)⟩

/-- Settles O39: memory at `pc` holds the bytes of the JMP, so the step is its jump to where it stands; the run is then by
induction on the number of steps. -/
theorem selfJumpRunsForever : Obligations.SelfJumpRunsForever := by
  unfold Obligations.SelfJumpRunsForever
  intro k a r s hrunning hp ha hop hoperand htarget
  have hbytes : ∀ (k : Nat) (v : Byte), (encode (.jmp a))[k]? = some v →
      s.readMem (BitVec.ofNat 8 (s.pc.toNat + k)) = v := by
    intro k v hk
    change s.readMem (s.pcPlus k) = v
    rw [State.pcPlus_eq]
    match k, hk with
    | 0, hk => rw [← Option.some.inj hk, ← hop]; simp
    | 1, hk => rw [← Option.some.inj hk]; exact hoperand
  have hstep : step s = .next s := by
    rw [stepRunsBytesInMemory s (.jmp a) hrunning rfl (Nat.add_le_add_right hp 1) hbytes, exec_jmp,
      branchInstr_taken ha rfl hp, htarget]
    rfl
  induction k with
  | zero => rfl
  | succ k ih => rw [run_succ_of_step hstep, ih]

end Sys2Proof.Machine
end

section
/-! SUPPORT. Two states that agree on everything a run can depend on: each operation keeps the agreement, each combinator of the
meanings answers alike in both, and so does the step, which is built of them. -/

namespace Sys2Proof.Machine

variable {s s' : State} {x x' : Answer} {a b : Byte}

/-- Two answers of the same kind; next states agree on everything a run can depend on. -/
inductive SameAnswer : Answer → Answer → Prop
  | next {t t' : State} (h : readable t = readable t') : SameAnswer (.next t) (.next t')
  | fault (f : Fault) : SameAnswer (.fault f) (.fault f)
  | refused (r : Refusal) : SameAnswer (.refused r) (.refused r)

theorem readable_eq_iff : readable s = readable s' ↔
    s.mem = s'.mem ∧ s.regs = s'.regs ∧ s.pc = s'.pc ∧ s.flags.e = s'.flags.e ∧ s.engine = s'.engine ∧ s.extAlu = s'.extAlu := by
  simp [readable]

variable (h : readable s = readable s')
include h

theorem pc_of_readable : s.pc = s'.pc := by
  obtain ⟨-, -, hpc, -⟩ := readable_eq_iff.mp h
  exact hpc

theorem flagE_of_readable : s.flags.e = s'.flags.e := by
  obtain ⟨-, -, -, he, -⟩ := readable_eq_iff.mp h
  exact he

theorem engine_of_readable : s.engine = s'.engine := by
  obtain ⟨-, -, -, -, hengine, -⟩ := readable_eq_iff.mp h
  exact hengine

theorem extAlu_of_readable : s.extAlu = s'.extAlu := by
  obtain ⟨-, -, -, -, -, hext⟩ := readable_eq_iff.mp h
  exact hext

theorem reg_of_readable (r : RegIdx) : s.reg r = s'.reg r := by
  obtain ⟨-, hregs, -⟩ := readable_eq_iff.mp h
  rw [State.reg, State.reg, hregs]

theorem sp_of_readable : s.sp = s'.sp := reg_of_readable h 7

theorem readMem_of_readable (p : Addr) : s.readMem p = s'.readMem p := by
  obtain ⟨hmem, -⟩ := readable_eq_iff.mp h
  rw [State.readMem, State.readMem, hmem]

theorem pcPlus_of_readable (n : Nat) : s.pcPlus n = s'.pcPlus n := by rw [State.pcPlus, State.pcPlus, pc_of_readable h]

theorem readable_setReg (r : RegIdx) (v : Byte) : readable (s.setReg r v) = readable (s'.setReg r v) := by
  obtain ⟨hmem, hregs, hrest⟩ := readable_eq_iff.mp h
  exact readable_eq_iff.mpr ⟨hmem, congrArg (·.set r.val v) hregs, hrest⟩

theorem readable_setSp (v : Byte) : readable (s.setSp v) = readable (s'.setSp v) := readable_setReg h 7 v

theorem readable_setPc (p : Addr) : readable (s.setPc p) = readable (s'.setPc p) := by
  obtain ⟨hmem, hregs, -, hrest⟩ := readable_eq_iff.mp h
  exact readable_eq_iff.mpr ⟨hmem, hregs, rfl, hrest⟩

theorem readable_writeMem (p : Addr) (v : Byte) : readable (s.writeMem p v) = readable (s'.writeMem p v) := by
  obtain ⟨hmem, hrest⟩ := readable_eq_iff.mp h
  exact readable_eq_iff.mpr ⟨congrArg (·.write p v) hmem, hrest⟩

theorem readable_setFlags {f f' : Flags} (he : f.e = f'.e) : readable (s.setFlags f) = readable (s'.setFlags f') := by
  obtain ⟨hmem, hregs, hpc, -, hrest⟩ := readable_eq_iff.mp h
  exact readable_eq_iff.mpr ⟨hmem, hregs, hpc, he, hrest⟩

/-- The output cannot be read, so the values emitted may differ. -/
theorem readable_emit (v v' : Byte) : readable (s.emit v) = readable (s'.emit v') := h

theorem readable_halt : readable s.halt = readable s'.halt := by
  obtain ⟨hmem, hregs, hpc, he, -, hext⟩ := readable_eq_iff.mp h
  exact readable_eq_iff.mpr ⟨hmem, hregs, hpc, he, rfl, hext⟩

/-- The fault record cannot be read, so taking a fault is halting. -/
theorem readable_enterFault (c : Cause) : readable (s.enterFault c) = readable (s'.enterFault c) := readable_halt h

/-- Only `E` of the compare's result can be read, and it depends on `E` and the operands alone. -/
theorem readable_compare (x y : Byte) : readable (s.setFlags (compareFlags x y s.flags)) =
    readable (s'.setFlags (compareFlags x y s'.flags)) := by
  have he : (compareFlags x y s.flags).e = (compareFlags x y s'.flags).e := by
    unfold compareFlags
    split
    · rfl
    · split <;> exact flagE_of_readable h
  exact readable_setFlags h he

theorem readable_pushByte {f f' : State → Byte} (hf : f (s.setSp s.pushAddr) = f' (s'.setSp s'.pushAddr)) :
    readable (s.pushByte f) = readable (s'.pushByte f') := by
  have haddr : s.pushAddr = s'.pushAddr := congrArg (· - 1) (sp_of_readable h)
  rw [pushByte_eq, pushByte_eq, hf, haddr]
  exact readable_writeMem (readable_setSp h _) _ _

theorem sameAnswer_raise (c : Cause) : SameAnswer (raise c s) (raise c s') := .next (readable_enterFault h c)

theorem sameAnswer_inRange {n : Nat} (hx : SameAnswer x x') : SameAnswer (inRange n s x) (inRange n s' x') := by
  unfold inRange
  rw [pc_of_readable h]
  split
  · exact sameAnswer_raise h _
  · exact hx

theorem sameAnswer_guardNext {n : Nat} (hx : SameAnswer x x') : SameAnswer (guardNext n s x) (guardNext n s' x') :=
  sameAnswer_inRange h hx

theorem sameAnswer_regOperand {k k' : RegIdx → Answer} (hk : ∀ r, SameAnswer (k r) (k' r)) :
    SameAnswer (regOperand a s k) (regOperand a s' k') := by
  unfold regOperand
  split
  · exact sameAnswer_raise h _
  · exact hk _

theorem sameAnswer_withReg {n : Nat} {k k' : RegIdx → Answer} (hk : ∀ r, SameAnswer (k r) (k' r)) :
    SameAnswer (withReg n a s k) (withReg n a s' k') :=
  sameAnswer_inRange h (sameAnswer_regOperand h hk)

theorem sameAnswer_guardPush (hx : SameAnswer x x') : SameAnswer (guardPush s x) (guardPush s' x') := by
  unfold guardPush
  rw [sp_of_readable h]
  split
  · exact sameAnswer_raise h _
  · exact hx

theorem sameAnswer_guardPop {v v' : Byte} (hv : v = v') (hx : SameAnswer x x') :
    SameAnswer (guardPop v s x) (guardPop v' s' x') := by
  unfold guardPop
  rw [hv]
  split
  · exact sameAnswer_raise h _
  · exact hx

theorem sameAnswer_fallThrough {n : Nat} {f f' : State → State} (hf : readable (f s) = readable (f' s')) :
    SameAnswer (fallThrough n s f) (fallThrough n s' f') := by
  refine sameAnswer_guardNext h (.next ?_)
  rw [pcPlus_of_readable h]
  exact readable_setPc hf _

theorem readable_aluEffect (op : AluOp) (ra rb : RegIdx) : readable (aluEffect op ra rb s) = readable (aluEffect op ra rb s') := by
  unfold aluEffect
  rw [reg_of_readable h ra, reg_of_readable h rb]
  split
  · exact readable_compare h _ _
  · exact readable_setReg h _ _

theorem sameAnswer_aluInstr (op : AluOp) : SameAnswer (aluInstr op a b s) (aluInstr op a b s') := by
  refine sameAnswer_inRange h (sameAnswer_regOperand h fun ra => sameAnswer_regOperand h fun rb => sameAnswer_guardNext h ?_)
  have hext := extAlu_of_readable h
  cases hs : aluSupports s.extAlu op with
  | true =>
    rw [aluApply_ok hs, aluApply_ok (hext ▸ hs)]
    refine .next ?_
    rw [pcPlus_of_readable h]
    exact readable_setPc (readable_aluEffect h op ra rb) _
  | false =>
    rw [aluApply_error hs, aluApply_error (hext ▸ hs)]
    exact sameAnswer_raise h _

theorem sameAnswer_branchInstr {c c' : Bool} (hc : c = c') : SameAnswer (branchInstr c a s) (branchInstr c' a s') := by
  subst hc
  refine sameAnswer_withReg h fun r => ?_
  unfold branchIf
  split
  · rw [reg_of_readable h]
    exact .next (readable_setPc h _)
  · exact sameAnswer_fallThrough h h

theorem sameAnswer_push : SameAnswer (exec (.push a) s) (exec (.push a) s') := by
  refine sameAnswer_withReg h fun r => sameAnswer_guardPush h (sameAnswer_fallThrough h (readable_pushByte h ?_))
  rw [State.pushAddr, sp_of_readable h]
  exact reg_of_readable (readable_setSp h _) r

theorem sameAnswer_call : SameAnswer (exec (.call a) s) (exec (.call a) s') := by
  refine sameAnswer_withReg h fun r => sameAnswer_guardPush h (sameAnswer_guardNext h (.next ?_))
  have hpushed := readable_pushByte h (f := fun _ => s.pcPlus 2) (f' := fun _ => s'.pcPlus 2) (pcPlus_of_readable h 2)
  rw [reg_of_readable hpushed r]
  exact readable_setPc hpushed _

theorem popBase_of_readable (r : RegIdx) : popBase r s = popBase r s' := by
  rw [popBase, popBase, sp_of_readable h, readMem_of_readable h]

theorem sameAnswer_pop : SameAnswer (exec (.pop a) s) (exec (.pop a) s') := by
  refine sameAnswer_withReg h fun r => sameAnswer_guardPop h (popBase_of_readable h r) (sameAnswer_fallThrough h ?_)
  rw [popBase_of_readable h, sp_of_readable h, readMem_of_readable h]
  exact readable_setSp (readable_setReg h _ _) _

theorem sameAnswer_ret : SameAnswer (exec .ret s) (exec .ret s') := by
  refine sameAnswer_guardPop h (sp_of_readable h) (.next ?_)
  rw [sp_of_readable h, readMem_of_readable h]
  exact readable_setSp (readable_setPc h _) _

theorem sameAnswer_exec (i : Instr) : SameAnswer (exec i s) (exec i s') := by
  cases i with
  | hlt => exact .next (readable_halt h)
  | ldi a b => exact sameAnswer_withReg h fun r => sameAnswer_fallThrough h (readable_setReg h r b)
  | prn a => exact sameAnswer_withReg h fun r => sameAnswer_fallThrough h (readable_emit h _ _)
  | push a => exact sameAnswer_push h
  | pop a => exact sameAnswer_pop h
  | call a => exact sameAnswer_call h
  | ret => exact sameAnswer_ret h
  | jeq a => exact sameAnswer_branchInstr h (flagE_of_readable h)
  | jmp a => exact sameAnswer_branchInstr h rfl
  | jne a => exact sameAnswer_branchInstr h (congrArg not (flagE_of_readable h))
  | mul a b => exact sameAnswer_aluInstr h .mul
  | add a b => exact sameAnswer_aluInstr h .add
  | cmp a b => exact sameAnswer_aluInstr h .cmp
  | sub a b => exact sameAnswer_aluInstr h .sub
  | and a b => exact sameAnswer_aluInstr h .and
  | or a b => exact sameAnswer_aluInstr h .or
  | xor a b => exact sameAnswer_aluInstr h .xor
  | shl a b => exact sameAnswer_aluInstr h .shl
  | shr a b => exact sameAnswer_aluInstr h .shr

theorem fetchDecode_of_readable : fetchDecode s = fetchDecode s' := by
  have hbytes : fetchBytes s = fetchBytes s' := by
    simp only [fetchBytes_eq, pc_of_readable h, pcPlus_of_readable h, readMem_of_readable h]
  rw [fetchDecode, fetchDecode, hbytes, extAlu_of_readable h]

theorem sameAnswer_step : SameAnswer (step s) (step s') := by
  unfold step
  rw [← engine_of_readable h, ← fetchDecode_of_readable h]
  split
  · exact .fault _
  · exact .fault _
  · split
    · exact sameAnswer_exec h _
    · exact sameAnswer_raise h _

end Sys2Proof.Machine
end

section
/-! PROOF that no run can learn `L`, `G`, the fault record or the output (10_state.md). -/

namespace Sys2Proof.Machine

/-- Settles O38, by induction on the number of steps: each step answers alike in two states that agree on what can be read, and
its answers agree on that again. -/
theorem lessGreaterAndOutputUnreadable : Obligations.LessGreaterAndOutputUnreadable := by
  unfold Obligations.LessGreaterAndOutputUnreadable
  intro k
  induction k with
  | zero =>
    intro s s' t h hrun
    cases hrun
    exact ⟨s', rfl, h⟩
  | succ k ih =>
    intro s s' t h hrun
    obtain ⟨u, hu, hrun⟩ := run_succ_cases hrun
    have hsame := sameAnswer_step h
    rw [hu] at hsame
    generalize hstep : step s' = answer at hsame
    cases hsame with
    | next hagree =>
      rw [run_succ_of_step hstep]
      exact ih u _ t hagree hrun

end Sys2Proof.Machine
end

section
/-! PROOFS of the statement about the form of memory (20_memory.md, log 5). -/

namespace Sys2Proof.Machine

namespace Memory

theorem wfFrom_succ_of_cons {low j : Nat} {v : Byte} {rest : Memory} (h : wfFrom low ((j, v) :: rest) = true) :
    wfFrom (j + 1) rest = true := by
  obtain ⟨-, -, -, hrest⟩ := (wfFrom_cons ..).mp h
  exact hrest

@[simp] theorem readCell_head (j : Nat) (v : Byte) (rest : Memory) : readCell ((j, v) :: rest) j = v := by
  simp [readCell]

theorem readCell_tail {j k : Nat} (h : j ≠ k) (v : Byte) (rest : Memory) :
    readCell ((j, v) :: rest) k = readCell rest k := by
  simp [readCell, h]

/-- A listed cell does not hold the reset content, so a memory that reads as it there lists a key that is no higher. -/
theorem head_le_of_readCell_eq {low j j' : Nat} {v v' : Byte} {rest rest' : Memory} (h : wfFrom low ((j, v) :: rest) = true)
    (h' : wfFrom low ((j', v') :: rest') = true)
    (hread : readCell ((j, v) :: rest) j = readCell ((j', v') :: rest') j) : j' ≤ j := by
  obtain ⟨-, -, hv, -⟩ := (wfFrom_cons ..).mp h
  obtain ⟨-, hj', hv', hrest'⟩ := (wfFrom_cons ..).mp h'
  by_contra hlt
  have hfrom : wfFrom j' ((j', v') :: rest') = true := (wfFrom_cons ..).mpr ⟨Nat.le_refl j', hj', hv', hrest'⟩
  rw [readCell_head, readCell_below hfrom (Nat.lt_of_not_le hlt)] at hread
  exact hv hread

/-- A canonical list that reads as the empty one is empty. -/
theorem eq_nil_of_readCell_eq {low : Nat} {m : Memory} (hm : wfFrom low m = true)
    (hread : ∀ k < Config.memSize, readCell m k = Config.memReset) : m = [] := by
  cases m with
  | nil => rfl
  | cons c rest =>
    obtain ⟨j, v⟩ := c
    obtain ⟨-, hj, hv, -⟩ := (wfFrom_cons ..).mp hm
    exact absurd ((readCell_head j v rest).symm.trans (hread j hj)) hv

theorem eq_of_readCell_eq {low : Nat} {m m' : Memory} (hm : wfFrom low m = true) (hm' : wfFrom low m' = true)
    (hread : ∀ k < Config.memSize, readCell m k = readCell m' k) : m = m' := by
  induction m generalizing low m' with
  | nil => exact (eq_nil_of_readCell_eq hm' fun k hk => (hread k hk).symm).symm
  | cons c rest ih =>
    obtain ⟨j, v⟩ := c
    cases m' with
    | nil => exact eq_nil_of_readCell_eq hm hread
    | cons c' rest' =>
      obtain ⟨j', v'⟩ := c'
      obtain ⟨-, hj, -⟩ := (wfFrom_cons ..).mp hm
      obtain ⟨-, hj', -⟩ := (wfFrom_cons ..).mp hm'
      have hle := head_le_of_readCell_eq hm hm' (hread j hj)
      have hle' := head_le_of_readCell_eq hm' hm (hread j' hj').symm
      obtain rfl : j = j' := Nat.le_antisymm hle' hle
      obtain rfl : v = v' := by simpa using hread j hj
      have hrest := wfFrom_succ_of_cons hm
      have hrest' := wfFrom_succ_of_cons hm'
      rw [ih hrest hrest' fun k hk => ?_]
      by_cases hkj : j = k
      · rw [← hkj, readCell_below hrest (Nat.lt_succ_self j), readCell_below hrest' (Nat.lt_succ_self j)]
      · simpa only [readCell_tail hkj] using hread k hk

end Memory

/-- Settles O41, the second part by induction on the list: the first cell of each list is the lowest that does not hold the
reset content. -/
theorem canonicalMemoryIsContent : Obligations.CanonicalMemoryIsContent := by
  unfold Obligations.CanonicalMemoryIsContent
  constructor
  · exact fun m a v hm => Memory.write_wf hm a v
  · intro m m' hm hm' hread
    refine Memory.eq_of_readCell_eq hm hm' fun k hk => ?_
    have hk' : k % 2 ^ 8 = k := Nat.mod_eq_of_lt hk
    simpa only [Memory.read, BitVec.toNat_ofNat, hk'] using hread (BitVec.ofNat 8 k)

end Sys2Proof.Machine
end

section
/-! PROOFS of the statements about the program file (30_encoding.md section 5). -/

namespace Sys2Proof.Machine

variable {tokens : List (List Char)} {token line : List Char} {bytes : List Byte} {e : LoadError}

/-- Tokens that all give bytes denote them. -/
theorem denote_of_tokensBytes_ok (h : tokensBytes tokens = .ok bytes) : ∀ token ∈ tokens, DenotesByte token := by
  induction tokens generalizing bytes with
  | nil => simp
  | cons token rest ih =>
    rw [tokensBytes] at h
    cases htoken : tokenByte token with
    | error e => simp [htoken] at h
    | ok v =>
      cases hrest : tokensBytes rest with
      | error e => simp [htoken, hrest] at h
      | ok vs =>
        rw [List.forall_mem_cons]
        exact ⟨(tokenByte_ok_iff.mp htoken).1, ih hrest⟩

theorem fitsMemory_ok_iff {program : List Byte} : fitsMemory bytes = .ok program ↔ bytes.length ≤ 256 ∧ program = bytes := by
  by_cases h : bytes.length ≤ 256
  · simp [fitsMemory, Config.memSize, h, Nat.not_lt.mpr h, eq_comm]
  · simp [fitsMemory, Config.memSize, h, Nat.lt_of_not_le h]

theorem fitsMemory_error (h : 256 < bytes.length) : fitsMemory bytes = .error .programTooLarge := if_pos h

variable {lines : List (List Char × Option (List Char))} {text : List Char}

/-- The bytes of a file are the values of its tokens, if each denotes one and they are no more than memory has cells. -/
theorem programOfFile_ok_iff (h : FileOfLines lines text) {program : List Byte} :
    programOfFile (some text) = .ok program ↔
      (lines.filterMap Prod.snd).length ≤ 256 ∧ (∀ token ∈ lines.filterMap Prod.snd, DenotesByte token) ∧
        program = (lines.filterMap Prod.snd).map fun token => BitVec.ofNat 8 (placeValue token) := by
  cases hb : tokensBytes (lines.filterMap Prod.snd) with
  | error e =>
    rw [programOfFile_of_error h hb]
    constructor
    · intro hok
      cases hok
    · rintro ⟨-, hall, -⟩
      rw [tokensBytes_of_denote hall] at hb
      cases hb
  | ok bytes =>
    have hall := denote_of_tokensBytes_ok hb
    rw [programOfFile_of_bytes h hb, fitsMemory_ok_iff]
    rw [tokensBytes_of_denote hall] at hb
    cases hb
    rw [List.length_map]
    exact and_congr_right fun _ => (and_iff_right hall).symm

theorem toNat_ofNat_placeValue (h : DenotesByte token) : (BitVec.ofNat 8 (placeValue token)).toNat = placeValue token := by
  have hlt : placeValue token < 2 ^ 8 := Nat.lt_succ_of_le h.2
  rw [BitVec.toNat_ofNat, Nat.mod_eq_of_lt hlt]

/-- Settles O46: the tokens of the lines decide, each on its own and then their number. -/
theorem loaderAcceptsExactly : Obligations.LoaderAcceptsExactly := by
  unfold Obligations.LoaderAcceptsExactly
  intro ext lines text h
  constructor
  · simp only [programOfFile_ok_iff h]
    constructor
    · rintro ⟨program, hlen, hall, -⟩
      exact ⟨hlen, hall⟩
    · rintro ⟨hlen, hall⟩
      exact ⟨_, hlen, hall, rfl⟩
  · intro program hok
    refine ⟨?bytes, by rw [boot, hok]⟩
    obtain ⟨-, hall, rfl⟩ := (programOfFile_ok_iff h).mp hok
    rw [List.map_map]
    exact List.map_congr_left fun token ht => toNat_ofNat_placeValue (hall token ht)

theorem splitLines_cons_of_ne {c : Char} (hc : c ≠ '\n') {rest : List Char} {more : List (List Char)}
    (h : splitLines rest = line :: more) : splitLines (c :: rest) = (c :: line) :: more := by
  simp [splitLines, h, hc]

theorem splitLines_cons_line_end (rest : List Char) : splitLines ('\n' :: rest) = [] :: splitLines rest :=
  splitLines_cons_line (line := []) (by simp) rest

theorem line_end_not_mem_of_splitLines (text : List Char) : ∀ line ∈ splitLines text, '\n' ∉ line := by
  induction text with
  | nil => simp [splitLines]
  | cons c rest ih =>
    by_cases hc : c = '\n'
    · subst hc
      rw [splitLines_cons_line_end, List.forall_mem_cons]
      exact ⟨List.not_mem_nil, ih⟩
    · obtain ⟨line, more, hlines⟩ := List.exists_cons_of_ne_nil (splitLines_ne_nil rest)
      rw [hlines, List.forall_mem_cons] at ih
      rw [splitLines_cons_of_ne hc hlines, List.forall_mem_cons]
      refine ⟨fun hmem => ?_, ih.2⟩
      rcases List.mem_cons.mp hmem with heq | hmem
      · exact hc heq.symm
      · exact ih.1 hmem

/-- Joining the lines of a text gives the text back. -/
theorem intercalate_splitLines (text : List Char) : List.intercalate ['\n'] (splitLines text) = text := by
  induction text with
  | nil => rfl
  | cons c rest ih =>
    obtain ⟨line, more, hlines⟩ := List.exists_cons_of_ne_nil (splitLines_ne_nil rest)
    by_cases hc : c = '\n'
    · subst hc
      rw [hlines] at ih
      rw [splitLines_cons_line_end, hlines, List.intercalate_cons_cons, ih]
      rfl
    · rw [hlines] at ih
      rw [splitLines_cons_of_ne hc hlines, ← ih]
      cases more with
      | nil => simp
      | cons next more => simp only [List.intercalate_cons_cons, List.cons_append]

/-- A line whose first character after white space is not `#` means its first token, which ends before the next white space. -/
theorem lineMeans_of_word {margin rest : List Char} {c : Char} (hmargin : ∀ d ∈ margin, isBlank d = true)
    (hc : isBlank c = false) (hhash : c ≠ '#') :
    LineMeans (margin ++ c :: rest) (some ((c :: rest).takeWhile fun d => !isBlank d)) := by
  have hstart : (c :: rest).takeWhile (fun d => !isBlank d) = c :: rest.takeWhile fun d => !isBlank d :=
    List.takeWhile_cons_of_pos (by simp [hc])
  have hmeans := LineMeans.token margin ((c :: rest).takeWhile fun d => !isBlank d) ((c :: rest).dropWhile fun d => !isBlank d)
    hmargin (by simp [hstart]) (fun d hd => by simpa using List.mem_takeWhile_imp hd) (by simpa [hstart] using hhash)
    fun d hd => ?delimited
  case delimited =>
    have hhead := List.head?_dropWhile_not (fun d => !isBlank d) (c :: rest)
    rw [hd] at hhead
    simpa using hhead
  rwa [List.takeWhile_append_dropWhile] at hmeans

/-- What the loader reads a line as is what the spec's words say of it. -/
theorem lineMeans_lineToken (line : List Char) : LineMeans line (lineToken line) := by
  have hsplit : line.takeWhile isBlank ++ line.dropWhile isBlank = line := List.takeWhile_append_dropWhile
  have hmargin : ∀ c ∈ line.takeWhile isBlank, isBlank c = true := fun c hc => List.mem_takeWhile_imp hc
  have hfirst := List.head?_dropWhile_not isBlank line
  unfold lineToken
  split
  next hnil => exact .blank line (List.dropWhile_eq_nil_iff.mp hnil)
  next c rest hcons =>
    rw [hcons] at hsplit
    rw [hcons, List.head?_cons] at hfirst
    split
    next hhash =>
      subst hhash
      exact hsplit ▸ .comment _ rest hmargin
    next hhash =>
      have hmeans := lineMeans_of_word (rest := rest) hmargin hfirst hhash
      rwa [hsplit] at hmeans

/-- Settles O51: cutting and joining are inverse to each other, and a line has one meaning, which the loader reads. -/
theorem loaderReadsLines : Obligations.LoaderReadsLines := by
  unfold Obligations.LoaderReadsLines
  refine ⟨fun text => ⟨splitLines_ne_nil text, line_end_not_mem_of_splitLines text, intercalate_splitLines text⟩,
    fun line meaning => ⟨fun h => h ▸ lineMeans_lineToken line, lineToken_of_means⟩⟩

theorem tokenByte_badToken (h : ¬ BinaryLiteral token) : tokenByte token = .error (.badToken token) := by
  rw [tokenByte, binaryValue_of_not_literal h]

theorem tokenByte_literalTooLarge (h : BinaryLiteral token) (hv : 255 < placeValue token) :
    tokenByte token = .error (.literalTooLarge token) := by
  simp only [tokenByte, binaryValue_of_literal h, if_pos hv]

/-- Settles O52: the first token that gives no byte decides the error of the tokens; only tokens that all give bytes come to the
check of their number; and `boot` hands an error on. -/
theorem loaderReportsErrors : Obligations.LoaderReportsErrors := by
  unfold Obligations.LoaderReportsErrors
  refine ⟨fun lines text h => ⟨fun good more bad htokens hgood => ⟨fun hbad => ?badToken, fun hbad hv => ?literalTooLarge⟩,
    fun hlen hall => ?programTooLarge⟩, rfl, fun ext file e he => by rw [boot, he]⟩
  case badToken =>
    refine programOfFile_of_error h ?_
    rw [htokens]
    exact tokensBytes_of_first_error hgood (tokenByte_badToken hbad)
  case literalTooLarge =>
    refine programOfFile_of_error h ?_
    rw [htokens]
    exact tokensBytes_of_first_error hgood (tokenByte_literalTooLarge hbad hv)
  case programTooLarge =>
    rw [programOfFile_of_bytes h (tokensBytes_of_denote hall)]
    exact fitsMemory_error (by rwa [List.length_map])

end Sys2Proof.Machine
end
